-- ==== Sys2Proof/Word.lean ====
section
/-! DEFINITION. The word types: every value the machine adds, stores or encodes is an unsigned byte or
a nibble of one (00_scope R4, R6). -/

namespace Sys2Proof

/-- A byte, an unsigned integer 0 to 255 (R6): register, memory cell, immediate, address, `pc`. -/
abbrev Byte := BitVec 8

/-- A nibble, four bits of a byte (R6): the opcode field. -/
abbrev Nibble := BitVec 4

/-- A register index, 0 to 15 (R11, R57: all sixteen values of a register field are legal). -/
abbrev RegIx := BitVec 4

end Sys2Proof
end

