-- ==== Sys2Proof/Config.lean ====
section
/-! DEFINITION. The open parameters of 00_scope R5 as plain data. The spec leaves no value undefined, so
there is no free value and no opaque constant here. `START` is an argument of Load and of Assemble. All six
defaults, that of `START` too, stand in Machine/Params.lean. -/

namespace Sys2Proof

/-- `PC_TOP_POLICY` (R5, R82): what a fetch or an advance past address 255 does. -/
inductive PcTopPolicy where
  /-- It raises `PcOutOfRange`. -/
  | fault
  /-- The address is taken modulo 256. -/
  | wrap
  deriving DecidableEq, Repr

/-- `LABEL_OVERFLOW` (R5, R119): what the assembler does with a label address above 255. -/
inductive LabelOverflow where
  /-- It raises `LabelOverflow` at the declaration. -/
  | reject
  /-- It keeps the raw address and patches its low byte. -/
  | truncate
  deriving DecidableEq, Repr

/-- The open parameters of one machine (R5), constant during a run. -/
structure Params where
  /-- `RESET_REG`: every register after Reset. -/
  resetReg : Byte
  /-- `RESET_MEM`: every memory cell after Reset. -/
  resetMem : Byte
  /-- `RESET_LAST`: `last_result` after Reset. -/
  resetLast : Byte
  /-- `PC_TOP_POLICY`. -/
  pcTop : PcTopPolicy
  /-- `LABEL_OVERFLOW`. -/
  labelOverflow : LabelOverflow
  deriving DecidableEq, Repr

end Sys2Proof
end

