-- ==== Sys2Proof/Machine/Memory.lean ====
section
/-! DEFINITION. The 256-cell memory (20_memory R40) as a list of (address, byte) pairs in one canonical
form: addresses strictly rising and below 256, no pair equal to what an unlisted address reads as. -/

namespace Sys2Proof.Machine

/-- The memory array, sparse. -/
abbrev Memory := List Host.Cell

/-- What an address that is not listed reads as: `RESET_MEM`'s default (R25, D1). DESIGN CHOICE, log 4. -/
def Memory.unlisted : Byte := 0x00

/-- The byte in a cell. -/
def Memory.readCell : Memory → Nat → Byte
  | [], _ => Memory.unlisted
  | c :: m, k => if c.1 = k then c.2 else Memory.readCell m k

/-- The memory without the listing of a cell. -/
def Memory.dropCell (m : Memory) (k : Nat) : Memory := m.filter (fun c => c.1 != k)

/-- The memory with a listing put at its place in the rising order. -/
def Memory.addCell (k : Nat) (b : Byte) : Memory → Memory
  | [] => [(k, b)]
  | c :: m => if k < c.1 then (k, b) :: c :: m else c :: Memory.addCell k b m

/-- `M[k] <- b`, keeping the canonical form. -/
def Memory.writeCell (m : Memory) (k : Nat) (b : Byte) : Memory :=
  if b = Memory.unlisted then Memory.dropCell m k
  else Memory.addCell k b (Memory.dropCell m k)

/-- `M[k + i] <- bytes[i]` for every `i`, in order (15_interfaces R32). -/
def Memory.writeCells (m : Memory) (k : Nat) : List Byte → Memory
  | [] => m
  | b :: bs => Memory.writeCells (Memory.writeCell m k b) (k + 1) bs

/-- The memory whose 256 cells all hold `b` (R25, any `RESET_MEM`). -/
def Memory.fill (b : Byte) : Memory :=
  if b = Memory.unlisted then [] else (List.range 256).map (fun k => (k, b))

/-- Every pair's address is below those of the pairs after it. -/
def Memory.rising : Memory → Bool
  | [] => true
  | c :: m => m.all (fun d => decide (c.1 < d.1)) && Memory.rising m

/-- The canonical form: rising, inside the 256 cells, nothing listed that need not be (DESIGN CHOICE, log 28). -/
def Memory.wf (m : Memory) : Bool :=
  Memory.rising m && m.all (fun c => decide (c.1 < 256) && c.2 != Memory.unlisted)

end Sys2Proof.Machine
end

