-- ==== Sys2Proof/Machine/Params.lean ====
section
/-! DEFINITION. The default values of the open parameters (00_scope R5). -/

namespace Sys2Proof.Machine

/-- The defaults of R5: reset bytes 0x00 (D1), `PC_TOP_POLICY = fault` (D5), `LABEL_OVERFLOW = reject`
(D16). DESIGN CHOICE (the spec's own), log 2 to 5. -/
def defaultParams : Params :=
  ⟨0x00, 0x00, 0x00, .fault, .reject⟩

/-- The default of `START` (R5, R100), for Load and for Assemble alike. DESIGN CHOICE (the spec's own),
log 2. -/
def defaultStart : Nat := 0

end Sys2Proof.Machine
end

