-- ==== Sys2Proof/Syntax.lean ====
section
/-! DEFINITION. The instructions (one constructor per row of the opcode table) and the assembler's
source text: its line forms and its errors. -/

namespace Sys2Proof

/-- The ten instructions of 30_encoding R57, R58, each with the operands its format uses.
The ignored bits of R60 are no operands, as in the spec's own `decode`. -/
inductive Instr where
  /-- `x[ra] <- M[addr8]` (R86). -/
  | loadm (ra : RegIx) (addr8 : Byte)
  /-- `M[addr8] <- x[ra]` (R87). -/
  | store (ra : RegIx) (addr8 : Byte)
  /-- Jump to `addr8` if the last result is zero (R96). -/
  | jumpz (addr8 : Byte)
  /-- `x[ra] <- x[rb] + x[rc]` (R91). -/
  | add (ra rb rc : RegIx)
  /-- `x[ra] <- x[rb] - x[rc]` (R92). -/
  | sub (ra rb rc : RegIx)
  /-- `x[ra] <- x[ra] - 1` (R93). -/
  | dec (ra : RegIx)
  /-- `x[ra] <- x[ra] + 1` (R94). -/
  | inc (ra : RegIx)
  /-- `x[ra] <- imm8` (R88). -/
  | loadc (ra : RegIx) (imm8 : Byte)
  /-- `x[ra] <- x[rb]` (R89). -/
  | copy (ra rb : RegIx)
  /-- Halt (R97). -/
  | stop
  deriving DecidableEq, Repr

/-- A piece of source text, as its characters. -/
abbrev Text := List Char

/-- What a non-blank source line means: the eleven forms of 50_assembler R103.
Forms 1, 2 and 4 to 10 fix a whole instruction, form 3 names a label that pass 2 resolves, and form 11
declares a label. -/
inductive SourceForm where
  /-- Forms 1, 2, 4 to 10: an instruction whose bytes are known in pass 1. -/
  | instr (i : Instr)
  /-- Form 3, `JUMPZ NAME`. -/
  | jump (name : Text)
  /-- Form 11, `NAME:`. -/
  | label (name : Text)
  deriving DecidableEq, Repr

/-- The fatal conditions of an assembly run (60_exceptions R130), with the values they carry. -/
inductive AsmError where
  /-- Pass 1: line `n` is not blank and has none of the eleven forms (R121). -/
  | unrecognizedLine (n : Nat)
  /-- Pass 1: line `n` declares a name a second time (R118). -/
  | duplicateLabel (n : Nat) (name : Text)
  /-- Pass 1, `LABEL_OVERFLOW = reject`: line `n` declares a label at address `a > 255` (R119). -/
  | labelOverflow (n : Nat) (name : Text) (a : Nat)
  /-- Pass 2: the JUMPZ of line `n` names a label never declared (R120). -/
  | unknownLabel (n : Nat) (name : Text)
  deriving DecidableEq, Repr

end Sys2Proof
end

