-- ==== Sys2Proof/Machine/State.lean ====
section
/-! DEFINITION. Every piece of state the spec gives the block: the CPU's (10_state R10 to R23), the
assembler's during a run (R24), and the whole block a host holds (15_interfaces R30, R37). -/

namespace Sys2Proof.Machine

/-- `status` (R17). -/
inductive Status where
  | running
  | halted
  | faulted
  deriving DecidableEq, Repr

/-- The execution-time faults (60_exceptions R130), held by `State.fault` after fault entry (R131).
No step answers `Host.Outcome.fault`: the spec describes fault entry as a change of state, so it is a next
state (log 7; safe: the faulted state is told apart from every other). -/
inductive Fault where
  /-- `IllegalOpcode(pc, op)`: raised by a Step that fetched an opcode 0x9 to 0xE (R132). Safe: the
  original's behaviour is undefined here (U1). -/
  | illegalOpcode (pc : Byte) (op : Nibble)
  /-- `PcOutOfRange(pc)`: raised under `PC_TOP_POLICY = fault` by a fetch at 255 or an advance from 254
  (R82, R133). Safe as a stop; the policy itself is the spec's choice (D5, log 2). -/
  | pcOutOfRange (pc : Byte)
  deriving DecidableEq, Repr

/-- What is no operation of the machine. -/
inductive Refusal where
  /-- An instruction without a meaning, named. No arm of `exec` answers it: all ten are modelled. Safe. -/
  | notModelled (mnemonic : String)
  /-- Raised by Load and Assemble for a `start` outside 0 to 255 (R33, R124, U11). Safe. -/
  | startOutOfRange (start : Nat)
  deriving DecidableEq, Repr

/-- The CPU state (R10 to R22), and the open parameters of the machine it belongs to (R5, log 1). -/
structure State where
  /-- `x[0]` to `x[15]` (R10). -/
  regs : Vector Byte 16
  /-- The program counter (R13). -/
  pc : Byte
  /-- `M[0]` to `M[255]` (R22, R40). -/
  mem : Memory
  /-- `last_result` (R16). -/
  lastResult : Byte
  /-- `status` (R17). -/
  status : Status
  /-- The fault record, none unless faulted (R17). -/
  fault : Option Fault
  /-- `jumped` (R18). -/
  jumped : Bool
  /-- `cur_mem` (R19). -/
  curMem : Option Byte
  /-- The open parameters, which nothing writes (R5). -/
  params : Params
  deriving DecidableEq, Repr

/-- The state after Reset of a machine with the parameters `p` (R25, R31). -/
def State.init (p : Params) : State where
  regs := Vector.replicate 16 p.resetReg
  pc := 0x00
  mem := Memory.fill p.resetMem
  lastResult := p.resetLast
  status := .running
  fault := none
  jumped := false
  curMem := none
  params := p

/-- The state after Reset with the default parameters (R5, R25). -/
def State.reset : State := State.init defaultParams

/-- One emitted instruction of the Program (R24, C11). -/
structure AsmEntry where
  /-- The source line as written (R123). -/
  lineText : Text
  /-- Its 1-based line number. -/
  n : Nat
  b0 : Byte
  b1 : Byte
  /-- A JUMPZ whose operand pass 2 has yet to write. -/
  pending : Bool
  deriving DecidableEq, Repr

/-- The assembler's state during one run (R24). -/
structure AsmRun where
  /-- The Program, in source order. -/
  prog : List AsmEntry
  /-- The label table, in the order of declaration. -/
  labels : List (Text × Nat)
  /-- The configured start offset, constant during the run. -/
  start : Byte
  deriving DecidableEq, Repr

/-- `count`, the number of entries in `prog` so far (R24). -/
def AsmRun.count (r : AsmRun) : Nat := r.prog.length

/-- The outputs of a successful assembly (R24, R122, R123). -/
structure AsmOutput where
  bytes : List Byte
  labels : List (Text × Nat)
  /-- The per-instruction source lines. -/
  lines : List Text
  deriving DecidableEq, Repr

/-- What a host holds: a CPU, and beside it what its assemblies returned (R35, R37, log 29). -/
structure Block where
  cpu : State
  /-- The outputs of the last successful assembly, for display (R37). -/
  asm : Option AsmOutput
  /-- The fatal error of the last assembly, none if it succeeded or there was none (R35, R137). -/
  asmError : Option AsmError
  deriving DecidableEq, Repr

end Sys2Proof.Machine
end

