-- ==== Sys2Proof/Machine/Ops.lean ====
section
/-! DEFINITION. The named operations over registers, memory, `pc` and `status`, fault entry, and the two
ends that every executing Step shares (40_execution_cycle R75). -/

namespace Sys2Proof.Machine

/-- `x[r]` (00_scope R7). -/
def State.readReg (s : State) (r : RegIx) : Byte := s.regs[r.toNat]

/-- `x[r] <- v` (R7). No register is hardwired (R10). -/
def State.writeReg (s : State) (r : RegIx) (v : Byte) : State :=
  { s with regs := s.regs.set r.toNat v }

/-- `MemRead(a, 1)` (R7, R44). -/
def State.memRead (s : State) (a : Byte) : Byte := Memory.readCell s.mem a.toNat

/-- `MemWrite(a, 1, v)` (R7, R44). -/
def State.memWrite (s : State) (a : Byte) (v : Byte) : State :=
  { s with mem := Memory.writeCell s.mem a.toNat v }

/-- `pc <- t`. -/
def State.setPc (s : State) (t : Byte) : State := { s with pc := t }

/-- `status <- halted` (R97). -/
def State.halt (s : State) : State := { s with status := .halted }

/-- Fault entry, `raise F(info)` (60_exceptions R131): nothing is saved and control goes nowhere. There is
no return from it (R142). -/
def State.raise (s : State) (f : Fault) : State :=
  { s with status := .faulted, fault := some f }

/-- Whether a Step executes: it is a no-op unless the machine runs (R76). -/
def State.canStep (s : State) : Bool := decide (s.status = .running)

/-- The start of an executing Step: the transients are cleared (R77). -/
def State.beginStep (s : State) : State := { s with jumped := false, curMem := none }

/-- Whether an advance from `pc0` stays inside what `pc` can hold, or may wrap (R82). -/
def State.canAdvance (s : State) (pc0 : Byte) : Bool :=
  decide (s.params.pcTop = .wrap) || decide (pc0.toNat < 254)

/-- The end of an executing Step (R75, R81, R82): unless the operation jumped or halted, `pc` advances by
two from `pc0`, or `PcOutOfRange(pc0)` is raised with the instruction's effects kept (log 9). -/
def State.complete (s : State) (pc0 : Byte) : State :=
  if s.status = .running ∧ s.jumped = false then
    if s.canAdvance pc0 then s.setPc (pc0 + 2) else s.raise (.pcOutOfRange pc0)
  else s

end Sys2Proof.Machine
end

