-- ==== Sys2Proof/Machine/Flags.lean ====
section
/-! DEFINITION. The condition and the transient flags: `last_result` (10_state R16), `cur_mem` (R19) and
`jumped` (R18). There is no other flag. -/

namespace Sys2Proof.Machine

/-- `last_result <- v` (R16). -/
def State.recordResult (s : State) (v : Byte) : State := { s with lastResult := v }

/-- `cur_mem <- a` (R19). -/
def State.noteAddress (s : State) (a : Byte) : State := { s with curMem := some a }

/-- `jumped <- true` (R18). -/
def State.markJumped (s : State) : State := { s with jumped := true }

/-- The machine's only condition: `last_result = 0` (R16, R96). -/
def State.resultIsZero (s : State) : Bool := decide (s.lastResult = 0x00)

end Sys2Proof.Machine
end

