-- ==== Sys2Proof/Machine/Operands.lean ====
section
/-! DEFINITION. Every operand form the spec gives (30_encoding R59, 41_memory_and_move R85): a register, an
8-bit constant, an absolute data address, an absolute jump target. None is extended, scaled or relative. -/

namespace Sys2Proof.Machine

/-- The effective address of LOADM and STORE: the operand byte itself (R59, R85). -/
def dataAddress (addr8 : Byte) : Byte := addr8

/-- The target of JUMPZ: the operand byte itself, absolute (R59, R96). -/
def jumpTarget (addr8 : Byte) : Byte := addr8

/-- The constant of LOADC: the operand byte itself (R59, R88). -/
def immediate (imm8 : Byte) : Byte := imm8

/-- A source register operand (R12). -/
def State.sourceReg (s : State) (r : RegIx) : Byte := s.readReg r

/-- A memory source operand (R86). -/
def State.sourceMem (s : State) (addr8 : Byte) : Byte := s.memRead (dataAddress addr8)

end Sys2Proof.Machine
end

