-- ==== Sys2Proof/Machine/Arithmetic.lean ====
section
/-! DEFINITION. The integer laws (42_arithmetic R90) and ADD, SUB, DEC, INC. -/

namespace Sys2Proof.Machine

/-- `(a + b) mod 256` (R90). -/
def addByte (a b : Byte) : Byte := a + b

/-- `(a - b) mod 256` (R90). -/
def subByte (a b : Byte) : Byte := a - b

/-- `(a + 1) mod 256` (R90). -/
def incByte (a : Byte) : Byte := addByte a 1

/-- `(a - 1) mod 256` (R90). -/
def decByte (a : Byte) : Byte := subByte a 1

/-- The result is written to the destination and recorded (R91 to R94); no other flag exists (R90). -/
def State.finishAlu (s : State) (ra : RegIx) (r : Byte) : State :=
  ((s.writeReg ra r).recordResult r).complete s.pc

/-- ADD (R91). Both sources are read before the destination is written (R80). -/
def execAdd (ra rb rc : RegIx) (s : State) : Host.Outcome State Fault Refusal :=
  .next (s.finishAlu ra (addByte (s.sourceReg rb) (s.sourceReg rc)))

/-- SUB (R92): the first source is the minuend. -/
def execSub (ra rb rc : RegIx) (s : State) : Host.Outcome State Fault Refusal :=
  .next (s.finishAlu ra (subByte (s.sourceReg rb) (s.sourceReg rc)))

/-- DEC (R93). -/
def execDec (ra : RegIx) (s : State) : Host.Outcome State Fault Refusal :=
  .next (s.finishAlu ra (decByte (s.sourceReg ra)))

/-- INC (R94). -/
def execInc (ra : RegIx) (s : State) : Host.Outcome State Fault Refusal :=
  .next (s.finishAlu ra (incByte (s.sourceReg ra)))

end Sys2Proof.Machine
end

