-- ==== Sys2Proof/Machine/Control.lean ====
section
/-! DEFINITION. JUMPZ and STOP (43_control). -/

namespace Sys2Proof.Machine

/-- JUMPZ's own effect (R96): taken exactly when the last result is zero. -/
def State.jumpIfZero (s : State) (addr8 : Byte) : State :=
  if s.resultIsZero then (s.setPc (jumpTarget addr8)).markJumped else s

/-- JUMPZ (R96). It records no result, taken or not (D9, log 12). -/
def execJumpz (addr8 : Byte) (s : State) : Host.Outcome State Fault Refusal :=
  .next ((s.jumpIfZero addr8).complete s.pc)

/-- STOP (R97). The machine is halted, so `pc` does not advance (R81). -/
def execStop (s : State) : Host.Outcome State Fault Refusal :=
  .next (s.halt.complete s.pc)

end Sys2Proof.Machine
end

