-- ==== Sys2Proof/Machine/MemoryMove.lean ====
section
/-! DEFINITION. LOADM, STORE, LOADC, COPY (41_memory_and_move). A meaning is the instruction's own effect
followed by the common end of the Step (R75), so that its answer is the state after the instruction. -/

namespace Sys2Proof.Machine

/-- LOADM (R86). -/
def execLoadm (ra : RegIx) (addr8 : Byte) (s : State) : Host.Outcome State Fault Refusal :=
  let v := s.sourceMem addr8
  .next ((((s.writeReg ra v).noteAddress (dataAddress addr8)).recordResult v).complete s.pc)

/-- STORE (R87). It records the value stored (D23, log 13). -/
def execStore (ra : RegIx) (addr8 : Byte) (s : State) : Host.Outcome State Fault Refusal :=
  let v := s.sourceReg ra
  let a := dataAddress addr8
  .next ((((s.memWrite a v).noteAddress a).recordResult v).complete s.pc)

/-- LOADC (R88). -/
def execLoadc (ra : RegIx) (imm8 : Byte) (s : State) : Host.Outcome State Fault Refusal :=
  let v := immediate imm8
  .next (((s.writeReg ra v).recordResult v).complete s.pc)

/-- COPY (R89). It records no result (D8, log 11). -/
def execCopy (ra rb : RegIx) (s : State) : Host.Outcome State Fault Refusal :=
  .next ((s.writeReg ra (s.sourceReg rb)).complete s.pc)

end Sys2Proof.Machine
end

