-- ==== Sys2Proof/Machine/Dispatch.lean ====
section
/-! DEFINITION. Dispatch (40_execution_cycle R79): one arm per instruction, each one call of its meaning. -/

namespace Sys2Proof.Machine

def exec (i : Instr) (s : State) : Host.Outcome State Fault Refusal :=
  match i with
  | .loadm ra addr8 => Sys2Proof.Machine.execLoadm ra addr8 s
  | .store ra addr8 => Sys2Proof.Machine.execStore ra addr8 s
  | .jumpz addr8 => Sys2Proof.Machine.execJumpz addr8 s
  | .add ra rb rc => Sys2Proof.Machine.execAdd ra rb rc s
  | .sub ra rb rc => Sys2Proof.Machine.execSub ra rb rc s
  | .dec ra => Sys2Proof.Machine.execDec ra s
  | .inc ra => Sys2Proof.Machine.execInc ra s
  | .loadc ra imm8 => Sys2Proof.Machine.execLoadc ra imm8 s
  | .copy ra rb => Sys2Proof.Machine.execCopy ra rb s
  | .stop => Sys2Proof.Machine.execStop s

end Sys2Proof.Machine
end

