-- ==== Sys2Proof/WellFormed.lean ====
section
/-! DEFINITION. When a term of the syntax is one the spec gives: operands in range, label names that
are words, label tables without repeats. -/

namespace Sys2Proof

/-- A register index is one of the sixteen (R10). The type admits no other. -/
def RegIx.wf (r : RegIx) : Bool := decide (r.toNat < 16)

/-- A byte operand is 0 to 255 (R6). The type admits no other. -/
def Byte.wf (b : Byte) : Bool := decide (b.toNat < 256)

/-- "in-range operands" (R63): every operand fits the field its format gives it (R57).
The operand types hold exactly the in-range values, so no instruction fails this check
(`Sys2Proof.instr_wf`, Laws/WellFormed.lean). -/
def Instr.wf : Instr → Bool
  | .loadm ra a => RegIx.wf ra && Byte.wf a
  | .store ra a => RegIx.wf ra && Byte.wf a
  | .jumpz a => Byte.wf a
  | .add ra rb rc => RegIx.wf ra && RegIx.wf rb && RegIx.wf rc
  | .sub ra rb rc => RegIx.wf ra && RegIx.wf rb && RegIx.wf rc
  | .dec ra => RegIx.wf ra
  | .inc ra => RegIx.wf ra
  | .loadc ra v => RegIx.wf ra && Byte.wf v
  | .copy ra rb => RegIx.wf ra && RegIx.wf rb
  | .stop => true

/-- An upper-case ASCII letter. -/
def isUpperLetter (c : Char) : Bool := decide ('A' ≤ c) && decide (c ≤ 'Z')

/-- A `NAME` token: one or more letters `A` to `Z` (R102). -/
def isName (t : Text) : Bool := !t.isEmpty && t.all isUpperLetter

/-- A line form as R103 gives it: a jump and a declaration carry a `NAME`, and a JUMPZ is never a line
of fixed bytes, because its operand is a label name and never a number (R107). -/
def SourceForm.wf : SourceForm → Bool
  | .instr (.jumpz _) => false
  | .instr i => Instr.wf i
  | .jump name => isName name
  | .label name => isName name

/-- A label table: every key is a `NAME`, and no name stands in it twice (R118). -/
def labelsWf : List (Text × Nat) → Bool
  | [] => true
  | e :: rest => isName e.1 && rest.all (fun d => d.1 != e.1) && labelsWf rest

end Sys2Proof
end

