-- ==== Sys2Proof/Decode.lean ====
section
/-! DEFINITION. The decoder (30_encoding R60, R61), total on any two bytes, the encoder (R62), the opcode
table as rows of masks, and the reading of a table word. -/

namespace Sys2Proof

/-- The high nibble of a byte, `b[7:4]` (R6). -/
def hiNibble (b : Byte) : Nibble := b.extractLsb' 4 4

/-- The low nibble of a byte, `b[3:0]` (R6). -/
def loNibble (b : Byte) : Nibble := b.extractLsb' 0 4

/-- What two fetched bytes are: an instruction, or the illegal opcode they hold (R60). -/
inductive Decoded where
  | instr (i : Instr)
  | illegal (op : Nibble)
  deriving DecidableEq, Repr

/-- `decode(b0, b1)` of R60: the high nibble of the first byte alone selects the instruction, and the bits
its format does not use are ignored (D6, log 10). -/
def decode (b0 b1 : Byte) : Decoded :=
  let op := hiNibble b0
  let ra := loNibble b0
  let rb := hiNibble b1
  let rc := loNibble b1
  match op.toNat with
  | 0x0 => .instr (.loadm ra b1)
  | 0x1 => .instr (.store ra b1)
  | 0x2 => .instr (.jumpz b1)
  | 0x3 => .instr (.add ra rb rc)
  | 0x4 => .instr (.sub ra rb rc)
  | 0x5 => .instr (.dec ra)
  | 0x6 => .instr (.inc ra)
  | 0x7 => .instr (.loadc ra b1)
  | 0x8 => .instr (.copy ra rb)
  | 0xF => .instr .stop
  | _ => .illegal op

/-- Why a byte sequence starts with no instruction. -/
inductive DecodeError where
  /-- Its first opcode is one of 0x9 to 0xE (R61). -/
  | illegalOpcode (op : Nibble)
  /-- Fewer than the two bytes every instruction has (R55). -/
  | truncated
  deriving DecidableEq, Repr

/-- The first instruction of a byte sequence, first byte first (R43), with the bytes after it. -/
def decodeBytes : List Byte → Except DecodeError (Instr × List Byte)
  | b0 :: b1 :: rest =>
    match decode b0 b1 with
    | .instr i => .ok (i, rest)
    | .illegal op => .error (.illegalOpcode op)
  | _ => .error .truncated

/-- The encoder of R62: the canonical two bytes, unused bits zero. -/
def encode : Instr → Byte × Byte
  | .loadm ra a => (0x0#4 ++ ra, a)
  | .store ra a => (0x1#4 ++ ra, a)
  | .jumpz a => (0x20#8, a)
  | .add ra rb rc => (0x3#4 ++ ra, rb ++ rc)
  | .sub ra rb rc => (0x4#4 ++ ra, rb ++ rc)
  | .dec ra => (0x5#4 ++ ra, 0x00#8)
  | .inc ra => (0x6#4 ++ ra, 0x00#8)
  | .loadc ra v => (0x7#4 ++ ra, v)
  | .copy ra rb => (0x8#4 ++ ra, rb ++ 0x0#4)
  | .stop => (0xF0#8, 0x00#8)

/-- The instruction word `I = b0 ++ b1` (R6). -/
def wordOf (b0 b1 : Byte) : BitVec 16 := b0 ++ b1

/-- One row of the machine-readable opcode map: `w &&& mask = match` selects it, and
`w &&& canonMask = canonMatch` says that `w` is its canonical encoding. -/
structure OpcodeRow where
  mnemonic : String
  mask : BitVec 16
  matchBits : BitVec 16
  canonMask : BitVec 16
  canonMatch : BitVec 16
  deriving DecidableEq, Repr

/-- An instruction's row of the opcode table, transcribed from spec/opcode_table.json. -/
def Instr.row : Instr → OpcodeRow
  | .loadm _ _ => ⟨"LOADM", 0xF000, 0x0000, 0xF000, 0x0000⟩
  | .store _ _ => ⟨"STORE", 0xF000, 0x1000, 0xF000, 0x1000⟩
  | .jumpz _ => ⟨"JUMPZ", 0xF000, 0x2000, 0xFF00, 0x2000⟩
  | .add _ _ _ => ⟨"ADD", 0xF000, 0x3000, 0xF000, 0x3000⟩
  | .sub _ _ _ => ⟨"SUB", 0xF000, 0x4000, 0xF000, 0x4000⟩
  | .dec _ => ⟨"DEC", 0xF000, 0x5000, 0xF0FF, 0x5000⟩
  | .inc _ => ⟨"INC", 0xF000, 0x6000, 0xF0FF, 0x6000⟩
  | .loadc _ _ => ⟨"LOADC", 0xF000, 0x7000, 0xF000, 0x7000⟩
  | .copy _ _ => ⟨"COPY", 0xF000, 0x8000, 0xF00F, 0x8000⟩
  | .stop => ⟨"STOP", 0xF000, 0xF000, 0xFFFF, 0xF000⟩

/-- The bits of `w`, numbered as the opcode table numbers them (bit 15 is `b0[7]`, INDEX.md), as the two
bytes the hardware stores, the lower address first. -/
def tableBytes (nbits w : Nat) : Byte × Byte :=
  let v := w % 2 ^ nbits
  (BitVec.ofNat 8 (v / 256), BitVec.ofNat 8 v)

/-- The instruction the decoder reads from a word of the opcode table (log 24). -/
def decodeTableWord (nbits w : Nat) : Option Instr :=
  let bytes := tableBytes nbits w
  match decode bytes.1 bytes.2 with
  | .instr i => some i
  | .illegal _ => none

end Sys2Proof
end

