-- ==== Sys2Proof/Machine/Fetch.lean ====
section
/-! DEFINITION. Fetch and decode (40_execution_cycle R78, R79, R82), in the order of checks of
60_exceptions R135. -/

namespace Sys2Proof.Machine

/-- The address of an instruction's second byte, modulo 256 (R75: the modulus matters only under `wrap`). -/
def operandAddress (pc0 : Byte) : Byte := pc0 + 1

/-- Whether the second byte of an instruction at `pc0` would lie past the end of memory (R82 (a)). -/
def State.fetchPastEnd (s : State) (pc0 : Byte) : Bool :=
  decide (pc0 = 255) && decide (s.params.pcTop = .fault)

/-- The instruction at `pc`, or the fault its fetch raises. Memory is read as it stands (R52, R78), and the
parity of `pc` is not tested (R15, D7, log 14). -/
def State.fetchDecode (s : State) : Except Fault Instr :=
  if s.fetchPastEnd s.pc then .error (.pcOutOfRange s.pc)
  else
    match decode (s.memRead s.pc) (s.memRead (operandAddress s.pc)) with
    | .instr i => .ok i
    | .illegal op => .error (.illegalOpcode s.pc op)

/-- The state with an instruction's two bytes at `pc`, and running, so that the next Step fetches them
(log 24). -/
def State.placeWord (s : State) (nbits w : Nat) : State :=
  let bytes := tableBytes nbits w
  { (s.memWrite s.pc bytes.1).memWrite (operandAddress s.pc) bytes.2 with
      status := .running, fault := none }

end Sys2Proof.Machine
end

