-- ==== Sys2Proof/Machine/Step.lean ====
section
/-! DEFINITION. `Step()` (40_execution_cycle R75). -/

namespace Sys2Proof.Machine

/-- One Step (R75): a no-op unless running, otherwise clear the transients, fetch, decode and execute, or
raise what the fetch raises. The end of the Step is part of the meanings (`State.complete`). -/
def step (s : State) : Host.Outcome State Fault Refusal :=
  if s.canStep then
    match s.beginStep.fetchDecode with
    | .ok i => exec i s.beginStep
    | .error f => .next (s.beginStep.raise f)
  else .next s

/-- `s` with an instruction word of the opcode table where `step` fetches its next instruction. -/
def State.withFetchWord (s : State) (nbits w : Nat) : State := s.placeWord nbits w

end Sys2Proof.Machine
end

