-- ==== Sys2Proof/Machine/Lexer.lean ====
section
/-! DEFINITION. Source text to line forms (50_assembler R101 to R104): lines, upper-casing, trimming, tokens
and the eleven patterns. The lexical details are the spec's own decision D14 (log 19, log 30). -/

namespace Sys2Proof.Machine

/-- The lines of a text: LF or CR LF ends a line and is no part of it (R101). -/
def splitLines : Text → List Text
  | [] => [[]]
  | c :: cs =>
    if c = '\n' then [] :: splitLines cs
    else if c = '\r' ∧ cs.head? = some '\n' then splitLines cs
    else
      match splitLines cs with
      | [] => [[c]]
      | l :: ls => (c :: l) :: ls

/-- Upper-casing of the ASCII letters, every other character unchanged (R101). -/
def upperChar (c : Char) : Char :=
  if 'a' ≤ c ∧ c ≤ 'z' then Char.ofNat (c.toNat - 32) else c

/-- A space or a tab (R101, R102 `WS`). -/
def isBlank (c : Char) : Bool := decide (c = ' ') || decide (c = '\t')

/-- A line without its leading and trailing spaces and tabs (R101). -/
def trim (t : Text) : Text := ((t.dropWhile isBlank).reverse.dropWhile isBlank).reverse

/-- The text that is matched against the forms (R101, steps 2 and 3). -/
def normalize (line : Text) : Text := trim (line.map upperChar)

/-- The tokens of a line: its maximal runs of characters other than `WS` (R102). -/
def tokens : Text → List Text
  | [] => []
  | c :: cs =>
    if isBlank c then tokens cs
    else
      match cs with
      | [] => [[c]]
      | d :: _ =>
        if isBlank d then [c] :: tokens cs
        else
          match tokens cs with
          | [] => [[c]]
          | w :: ws => (c :: w) :: ws

/-- `REG`: one letter `A` to `P`, its index letter minus 'A' (R11, R102, C1). -/
def regToken : Text → Option RegIx
  | [c] => if 'A' ≤ c ∧ c ≤ 'P' then some (BitVec.ofNat 4 (c.toNat - 'A'.toNat)) else none
  | _ => none

/-- The value of a hexadecimal digit `0` to `9`, `A` to `F` (R102). -/
def hexDigit (c : Char) : Option Nat :=
  if '0' ≤ c ∧ c ≤ '9' then some (c.toNat - '0'.toNat)
  else if 'A' ≤ c ∧ c ≤ 'F' then some (c.toNat - 'A'.toNat + 10)
  else none

/-- `BYTE`: exactly two hexadecimal digits (R102). -/
def byteToken : Text → Option Byte
  | [c, d] =>
    match hexDigit c, hexDigit d with
    | some h, some l => some (BitVec.ofNat 8 (16 * h + l))
    | _, _ => none
  | _ => none

/-- `NAME`: one or more letters `A` to `Z` (R102). -/
def nameToken (t : Text) : Option Text := if isName t then some t else none

/-- A `NAME` with the colon directly after it (R102, R103 form 11). -/
def declToken (t : Text) : Option Text :=
  match t.reverse with
  | ':' :: r => nameToken r.reverse
  | _ => none

/-- A form `KEYWORD REG BYTE`. -/
def formRegByte (kw : Text) (mk : RegIx → Byte → Instr) : List Text → Option SourceForm
  | [k, r, b] =>
    if k = kw then
      match regToken r, byteToken b with
      | some x, some v => some (.instr (mk x v))
      | _, _ => none
    else none
  | _ => none

/-- A form `KEYWORD REG REG REG`. -/
def formRegRegReg (kw : Text) (mk : RegIx → RegIx → RegIx → Instr) : List Text → Option SourceForm
  | [k, r1, r2, r3] =>
    if k = kw then
      match regToken r1, regToken r2, regToken r3 with
      | some x, some y, some z => some (.instr (mk x y z))
      | _, _, _ => none
    else none
  | _ => none

/-- A form `KEYWORD REG`. -/
def formReg (kw : Text) (mk : RegIx → Instr) : List Text → Option SourceForm
  | [k, r] => if k = kw then (regToken r).map (fun x => .instr (mk x)) else none
  | _ => none

/-- A form `KEYWORD REG REG`. -/
def formRegReg (kw : Text) (mk : RegIx → RegIx → Instr) : List Text → Option SourceForm
  | [k, r1, r2] =>
    if k = kw then
      match regToken r1, regToken r2 with
      | some x, some y => some (.instr (mk x y))
      | _, _ => none
    else none
  | _ => none

/-- Form 3, `JUMPZ NAME`. -/
def formJump (kw : Text) : List Text → Option SourceForm
  | [k, n] => if k = kw then (nameToken n).map .jump else none
  | _ => none

/-- Form 10, a keyword alone. -/
def formPlain (kw : Text) (i : Instr) : List Text → Option SourceForm
  | [k] => if k = kw then some (.instr i) else none
  | _ => none

/-- Form 11, `NAME:`. -/
def formLabel : List Text → Option SourceForm
  | [d] => (declToken d).map .label
  | _ => none

/-- The eleven line forms, in the order of R103. The text order of operands is the table's (D13, log 18). -/
def lineForms : List (List Text → Option SourceForm) :=
  [formRegByte ['L', 'O', 'A', 'D', 'M'] .loadm,
   formRegByte ['S', 'T', 'O', 'R', 'E'] .store,
   formJump ['J', 'U', 'M', 'P', 'Z'],
   formRegRegReg ['A', 'D', 'D'] .add,
   formRegRegReg ['S', 'U', 'B'] .sub,
   formReg ['D', 'E', 'C'] .dec,
   formReg ['I', 'N', 'C'] .inc,
   formRegByte ['L', 'O', 'A', 'D', 'C'] .loadc,
   formRegReg ['C', 'O', 'P', 'Y'] .copy,
   formPlain ['S', 'T', 'O', 'P'] .stop,
   formLabel]

/-- The forms a line matches, as a whole line. -/
def matchingForms (t : Text) : List SourceForm := lineForms.filterMap (fun form => form (tokens t))

/-- "a line must match exactly one pattern or the line is invalid" (R104). -/
def parseForm (t : Text) : Option SourceForm :=
  match matchingForms t with
  | [form] => some form
  | _ => none

end Sys2Proof.Machine
end

