-- ==== Sys2Proof/Machine/Disassembler.lean ====
section
/-! DEFINITION. The spelling of a decoded instruction (30_encoding R64, D19, log 31): the assembler's own
syntax, and `JUMPZ @1C` for a numeric target, which the assembler does not accept. -/

namespace Sys2Proof.Machine

/-- A register's letter (R11). -/
def regText (r : RegIx) : Text := [Char.ofNat ('A'.toNat + r.toNat)]

/-- An upper-case hexadecimal digit. -/
def hexChar (v : Nibble) : Char :=
  if v.toNat < 10 then Char.ofNat ('0'.toNat + v.toNat) else Char.ofNat ('A'.toNat + (v.toNat - 10))

/-- A byte as two upper-case hexadecimal digits. -/
def byteText (b : Byte) : Text := [hexChar (hiNibble b), hexChar (loNibble b)]

/-- Words with one space between them. -/
def spaced : List Text → Text
  | [] => []
  | [w] => w
  | w :: ws => w ++ ' ' :: spaced ws

/-- An instruction in the spelling of R64. -/
def disassemble : Instr → Text
  | .loadm ra a => spaced [['L', 'O', 'A', 'D', 'M'], regText ra, byteText a]
  | .store ra a => spaced [['S', 'T', 'O', 'R', 'E'], regText ra, byteText a]
  | .jumpz a => spaced [['J', 'U', 'M', 'P', 'Z'], '@' :: byteText a]
  | .add ra rb rc => spaced [['A', 'D', 'D'], regText ra, regText rb, regText rc]
  | .sub ra rb rc => spaced [['S', 'U', 'B'], regText ra, regText rb, regText rc]
  | .dec ra => spaced [['D', 'E', 'C'], regText ra]
  | .inc ra => spaced [['I', 'N', 'C'], regText ra]
  | .loadc ra v => spaced [['L', 'O', 'A', 'D', 'C'], regText ra, byteText v]
  | .copy ra rb => spaced [['C', 'O', 'P', 'Y'], regText ra, regText rb]
  | .stop => ['S', 'T', 'O', 'P']

end Sys2Proof.Machine
end

