-- ==== Sys2Proof/Machine/Assembler.lean ====
section
/-! DEFINITION. The two-pass assembler (50_assembler R100, R105 to R124). -/

namespace Sys2Proof.Machine

/-- An entry appended to the Program (R116). -/
def AsmRun.emit (r : AsmRun) (line : Text) (n : Nat) (b : Byte × Byte) (pending : Bool) : AsmRun :=
  { r with prog := r.prog ++ [⟨line, n, b.1, b.2, pending⟩] }

/-- The address of a label in a table. -/
def lookupLabel (labels : List (Text × Nat)) (name : Text) : Option Nat :=
  (labels.find? (fun e => decide (e.1 = name))).map (·.2)

/-- The byte offset a label declared now gets: `2 * count + start` (R115), a raw integer. -/
def AsmRun.here (r : AsmRun) : Nat := 2 * r.count + r.start.toNat

/-- A label declaration (R115, R118, R119): uniqueness is tested before overflow (R138, D17, log 20). -/
def AsmRun.declare (pol : LabelOverflow) (r : AsmRun) (n : Nat) (name : Text) : Except AsmError AsmRun :=
  if (lookupLabel r.labels name).isSome then .error (.duplicateLabel n name)
  else if 255 < r.here ∧ pol = .reject then .error (.labelOverflow n name r.here)
  else .ok { r with labels := r.labels ++ [(name, r.here)] }

/-- The bytes of a JUMPZ whose operand is not resolved yet (R107; the second is never observable, U12,
log 22). -/
def placeholder : Byte × Byte := (0x20, 0x00)

/-- Pass 1 on line `n` (R116). -/
def pass1Line (pol : LabelOverflow) (r : AsmRun) (n : Nat) (line : Text) : Except AsmError AsmRun :=
  if (normalize line).isEmpty then .ok r
  else
    match parseForm (normalize line) with
    | some (.instr i) => .ok (r.emit line n (encode i) false)
    | some (.jump _) => .ok (r.emit line n placeholder true)
    | some (.label name) => r.declare pol n name
    | none => .error (.unrecognizedLine n)

/-- Pass 1 over the lines numbered from `n` (R116); it stops at the first line that raises (R138). -/
def pass1 (pol : LabelOverflow) : AsmRun → Nat → List Text → Except AsmError AsmRun
  | r, _, [] => .ok r
  | r, n, line :: lines =>
    match pass1Line pol r n line with
    | .ok r' => pass1 pol r' (n + 1) lines
    | .error e => .error e

/-- The assembler at the start of a run (R25). -/
def AsmRun.empty (start : Byte) : AsmRun := ⟨[], [], start⟩

/-- The bytes of a JUMPZ patched with its label's address (R117, R119). -/
def patchedJump (a : Nat) : Byte × Byte := encode (.jumpz (BitVec.ofNat 8 (a % 256)))

/-- Pass 2 on one entry (R117): the source line is parsed again for the label name. A pending entry's line
always is a jump (`Sys2Proof.Machine.pass1_pending`), so the last case is never taken (log 22). -/
def patchEntry (labels : List (Text × Nat)) (e : AsmEntry) : Except AsmError AsmEntry :=
  if e.pending then
    match parseForm (normalize e.lineText) with
    | some (.jump name) =>
      match lookupLabel labels name with
      | some a => .ok { e with b0 := (patchedJump a).1, b1 := (patchedJump a).2, pending := false }
      | none => .error (.unknownLabel e.n name)
    | _ => .error (.unrecognizedLine e.n)
  else .ok e

/-- Pass 2 over the Program, in order (R117). -/
def pass2 (labels : List (Text × Nat)) : List AsmEntry → Except AsmError (List AsmEntry)
  | [] => .ok []
  | e :: es =>
    match patchEntry labels e with
    | .error err => .error err
    | .ok e' =>
      match pass2 labels es with
      | .error err => .error err
      | .ok es' => .ok (e' :: es')

/-- The object byte stream of a Program (R122). -/
def objectBytes (prog : List AsmEntry) : List Byte := prog.flatMap (fun e => [e.b0, e.b1])

/-- Both passes over the lines of a source (R100, R116, R117). -/
def assembleLines (pol : LabelOverflow) (lines : List Text) (start : Byte) : Except AsmError AsmOutput :=
  match pass1 pol (AsmRun.empty start) 1 lines with
  | .error e => .error e
  | .ok r =>
    match pass2 r.labels r.prog with
    | .error e => .error e
    | .ok prog => .ok ⟨objectBytes prog, r.labels, prog.map (·.lineText)⟩

/-- `Assemble(source, start)` (R35, R100), `start` by default 0: the outputs, or exactly one fatal error. A `start` outside 0 to
255 is no operation of the machine (R124, U11, log 16). -/
def assemble (pol : LabelOverflow) (source : Text) (start : Nat := defaultStart) :
    Host.Outcome AsmOutput AsmError Refusal :=
  if start < 256 then
    match assembleLines pol (splitLines source) (BitVec.ofNat 8 start) with
    | .ok out => .next out
    | .error e => .fault e
  else .refused (.startOutOfRange start)

/-- The source line of the instruction at an address, for display: entry `i` belongs to `start + 2 * i`
(R123). -/
def AsmOutput.lineAt (out : AsmOutput) (start : Byte) (addr : Nat) : Option Text :=
  if start.toNat ≤ addr ∧ (addr - start.toNat) % 2 = 0 then out.lines[(addr - start.toNat) / 2]?
  else none

end Sys2Proof.Machine
end

