-- ==== Sys2Proof/Machine/HostOps.lean ====
section
/-! DEFINITION. The block's interface (15_interfaces): Reset, Load, the introspection surface, and the five
operations as one alphabet. Each is one atomic transition (D2, log 27). -/

namespace Sys2Proof.Machine

/-- `Reset()` (R31): every element at its reset value; the machine's parameters are not state. -/
def hostReset (s : State) : State := State.init s.params

/-- `Load(bytes, start)` (R32): the first `256 - start` bytes are copied to `start` and up and `pc` is set;
nothing else changes, `halted` and `faulted` included (D11, log 15). A `start` outside 0 to 255 is no
operation of the machine (R33, log 16). -/
def load (bytes : List Byte) (start : Nat := defaultStart) (s : State) : Host.Outcome State Fault Refusal :=
  if start < 256 then
    .next { s with mem := Memory.writeCells s.mem start (bytes.take (256 - start)),
                   pc := BitVec.ofNat 8 start }
  else .refused (.startOutOfRange start)

/-- A run (R39): Reset, Load, and `k` Steps. -/
def runProgram (p : Params) (bytes : List Byte) (start : Nat := defaultStart) (k : Nat) : Host.Outcome State Fault Refusal :=
  match load bytes start (State.init p) with
  | .next s => Sys2Proof.core.run k s
  | .fault f => .fault f
  | .refused r => .refused r

/-- The operations a host can ask for, but reading (R30). -/
inductive HostOp where
  | reset
  | load (bytes : List Byte) (start : Nat := defaultStart)
  | step
  | assemble (source : Text) (start : Nat := defaultStart)
  deriving DecidableEq, Repr

/-- Why an operation gave no new state. -/
inductive BlockFault where
  /-- The CPU stopped with a fault outcome. No step answers one (log 7). -/
  | cpu (f : Fault)
  deriving DecidableEq, Repr

/-- The block after an operation on its CPU. -/
def Block.withCpu (b : Block) : Host.Outcome State Fault Refusal → Host.Outcome Block BlockFault Refusal
  | .next s => .next { b with cpu := s }
  | .fault f => .fault (.cpu f)
  | .refused r => .refused r

/-- One operation of the host (R30). Assemble leaves the CPU alone whether it succeeds or fails (R35, R137),
and the CPU's operations leave the assembler's outputs alone (R31, R129). -/
def Block.apply (b : Block) : HostOp → Host.Outcome Block BlockFault Refusal
  | .reset => .next { b with cpu := hostReset b.cpu }
  | .load bytes start => b.withCpu (load bytes start b.cpu)
  | .step => b.withCpu (step b.cpu)
  | .assemble source start =>
    match assemble b.cpu.params.labelOverflow source start with
    | .next out => .next { b with asm := some out, asmError := none }
    | .fault e => .next { b with asmError := some e }
    | .refused r => .refused r

/-- A sequence of operations, one after the other (R36), ended by the first that gives no new state. -/
def Block.run (b : Block) : List HostOp → Host.Outcome Block BlockFault Refusal
  | [] => .next b
  | op :: ops =>
    match b.apply op with
    | .next b' => Block.run b' ops
    | .fault f => .fault f
    | .refused r => .refused r

/-- The introspection surface (R37). -/
structure Introspection where
  regs : List Byte
  mem : List Byte
  pc : Byte
  curMem : Option Byte
  jumped : Bool
  lastResult : Byte
  status : Status
  fault : Option Fault
  labels : List (Text × Nat)
  lines : List Text
  deriving DecidableEq, Repr

/-- What the host reads between operations (R37). Reading changes nothing (R44). -/
def introspect (b : Block) : Introspection where
  regs := b.cpu.regs.toList
  mem := (List.range 256).map (Memory.readCell b.cpu.mem)
  pc := b.cpu.pc
  curMem := b.cpu.curMem
  jumped := b.cpu.jumped
  lastResult := b.cpu.lastResult
  status := b.cpu.status
  fault := b.cpu.fault
  labels := (b.asm.map (·.labels)).getD []
  lines := (b.asm.map (·.lines)).getD []

end Sys2Proof.Machine
end

