-- ==== Sys2Proof/Safety.lean ====
section
/-! DEFINITION. The terms claims use: how a run ends, the conditions under which an instruction executes,
what a frame says, and the invariants. -/

namespace Sys2Proof.Machine

/-- The run has ended normally (15_interfaces R39). -/
def State.endedNormally (s : State) : Prop := s.status = .halted

/-- The run has gone wrong: its state is no result (R39, R131). -/
def State.goneWrong (s : State) : Prop := s.status = .faulted

/-- The state in which a Step hands an instruction to its meaning: running, the transients cleared
(40_execution_cycle R75, R77). -/
abbrev State.Executing (s : State) : Prop :=
  s.status = .running ∧ s.jumped = false ∧ s.curMem = none

/-- An advance by two from `pc` is possible (R82): below 254, or `PC_TOP_POLICY = wrap`. -/
abbrev State.Advances (s : State) : Prop := s.pc.toNat < 254 ∨ s.params.pcTop = .wrap

/-- A fetch at `pc` is possible (R82): not at 255, or `PC_TOP_POLICY = wrap`. -/
abbrev State.Fetches (s : State) : Prop := s.pc.toNat < 255 ∨ s.params.pcTop = .wrap

/-- The byte after the one at `pc`, where the operand byte stands (R75, R78). -/
def State.operandByte (s : State) : Byte := s.memRead (BitVec.ofNat 8 ((s.pc.toNat + 1) % 256))

/-- Every register is as before. -/
abbrev SameRegs (s t : State) : Prop := ∀ r, t.readReg r = s.readReg r

/-- Register `ra` holds `v` and every other is as before. -/
abbrev RegWritten (s t : State) (ra : RegIx) (v : Byte) : Prop :=
  ∀ r, t.readReg r = if r = ra then v else s.readReg r

/-- Every byte of memory is as before. -/
abbrev SameMem (s t : State) : Prop := ∀ a, t.memRead a = s.memRead a

/-- Cell `a` holds `v` and every other is as before. -/
abbrev MemWritten (s t : State) (a v : Byte) : Prop :=
  ∀ x, t.memRead x = if x = a then v else s.memRead x

/-- `status`, `fault` and the parameters are as before. -/
abbrev SameControl (s t : State) : Prop :=
  t.status = s.status ∧ t.fault = s.fault ∧ t.params = s.params

/-- The Step ended with `pc` advanced by two and nothing jumped, halted or faulted (R81). -/
abbrev Advanced (s t : State) : Prop :=
  t.pc.toNat = (s.pc.toNat + 2) % 256 ∧ t.jumped = false ∧ SameControl s t

/-- `status` and `fault` are as before, or the top-of-memory fault was entered (R82 (b), R131). -/
abbrev ControlKeptOrTopFault (s t : State) : Prop :=
  (t.status = s.status ∧ t.fault = s.fault) ∨
    (t.status = .faulted ∧ t.fault = some (.pcOutOfRange s.pc) ∧ 254 ≤ s.pc.toNat ∧
      s.params.pcTop = .fault)

/-- The fault record is there exactly when the status is faulted (R26). -/
def State.RecordInv (s : State) : Prop := s.fault.isSome = true ↔ s.status = .faulted

/-- What every operation of the host keeps: the fault record (R26), and the memory's canonical form, which is the
model's own choice (log 28). -/
def State.HostInv (s : State) : Prop := Memory.wf s.mem = true ∧ s.RecordInv

/-- The transients say what the last executed Step did (R18, R19): a jump touched no memory, left the
machine running and the condition zero, and a touched cell holds the last result (R86, R87). -/
def State.TransientInv (s : State) : Prop :=
  (s.jumped = true → s.curMem = none ∧ s.status = .running ∧ s.lastResult = 0) ∧
    ∀ a, s.curMem = some a → s.memRead a = s.lastResult

/-- A stopped machine stands on what stopped it: a halted one on a STOP with its hints cleared (R97), one
with an illegal opcode on that opcode (R132), one out of range at the top of memory (R82, R133). -/
def State.StopInv (s : State) : Prop :=
  (s.status = .halted → hiNibble (s.memRead s.pc) = 0xF ∧ s.curMem = none) ∧
    (∀ p op, s.fault = some (.illegalOpcode p op) →
      p = s.pc ∧ hiNibble (s.memRead s.pc) = op ∧ 9 ≤ op.toNat ∧ op.toNat ≤ 14) ∧
    ∀ p, s.fault = some (.pcOutOfRange p) → p = s.pc ∧ 254 ≤ p.toNat ∧ s.params.pcTop = .fault

/-- The machine's whole invariant, kept by every Step. -/
def State.Coherent (s : State) : Prop := s.HostInv ∧ s.TransientInv ∧ s.StopInv

/-- The register an instruction writes (10_state R12), if it writes one. -/
def destReg : Instr → Option RegIx
  | .loadm ra _ => some ra
  | .store _ _ => none
  | .jumpz _ => none
  | .add ra _ _ => some ra
  | .sub ra _ _ => some ra
  | .dec ra => some ra
  | .inc ra => some ra
  | .loadc ra _ => some ra
  | .copy ra _ => some ra
  | .stop => none

/-- The opcode nibble of the byte at `pc`, as a number (R56, R60). -/
def State.opcode (s : State) : Nat := (s.memRead s.pc).toNat / 16

/-- The `ra` field of the byte at `pc` (R56). -/
def State.raField (s : State) : RegIx := BitVec.ofNat 4 ((s.memRead s.pc).toNat % 16)

/-- An instruction's encoding is the two bytes `b0`, `b1`, and the line of these words, one space between
them, assembles to exactly those bytes under every policy and start (R62, R105 to R114). -/
def Spelled (i : Instr) (b0 b1 : Nat) (words : List Text) : Prop :=
  encode i = (BitVec.ofNat 8 b0, BitVec.ofNat 8 b1) ∧
    ∀ pol start, assembleLines pol [spaced words] start =
      .ok ⟨[BitVec.ofNat 8 b0, BitVec.ofNat 8 b1], [], [spaced words]⟩

/-- Whether a source line is an instruction, so that pass 1 emits an entry for it (R116). -/
def emitsEntry (line : Text) : Bool :=
  match parseForm (normalize line) with
  | some (.instr _) => true
  | some (.jump _) => true
  | _ => false

/-- The instruction lines of a source, in order (R123). -/
def emittedLines (lines : List Text) : List Text := lines.filter emitsEntry

/-- The two bytes a source line stands for once the labels are known (R62, R117). -/
def lineBytes (labels : List (Text × Nat)) (line : Text) : List Byte :=
  match parseForm (normalize line) with
  | some (.instr i) => [(encode i).1, (encode i).2]
  | some (.jump name) => [0x20, BitVec.ofNat 8 ((lookupLabel labels name).getD 0)]
  | _ => []

/-- The label declared by a source line, if it is a declaration. -/
def declaredName (line : Text) : Option Text :=
  match parseForm (normalize line) with
  | some (.label name) => some name
  | _ => none

/-- The label table of a source read off line by line, `k` instructions having been emitted before it
(R115). -/
def labelTable (start : Nat) : Nat → List Text → List (Text × Nat)
  | _, [] => []
  | k, line :: lines =>
    match declaredName line with
    | some name => (name, 2 * k + start) :: labelTable start k lines
    | none => labelTable start (if emitsEntry line then k + 1 else k) lines

end Sys2Proof.Machine
end

