-- ==== Sys2Proof/Certificates/Slice0/Obligations.lean ====
section
/-! DEFINITION. The statements for the provers. A docstring names the rule of spec/ it formalises. Where it
rests on a decision the spec marks as its own (92_eei_decisions.md), or on an inference of the spec, it says
which, and the statement has basis "derived". -/

open Sys2Proof Sys2Proof.Machine

/-! ### The instructions -/

/-- 41_memory_and_move, LOADM, and 50_assembler section 3; the order and the lexical form of the words of its line are
the spec's own decisions D13 and D14 (log 18, log 19). -/
def Obligations.LoadmLoadsTheCell : Prop :=
  (∀ (ra : RegIx) (a : Byte), Spelled (.loadm ra a) (0x00 + ra.toNat) a.toNat
      [['L', 'O', 'A', 'D', 'M'], regText ra, byteText a]) ∧
    ∀ (ra : RegIx) (a : Byte) (s : State), s.Executing → s.Advances →
      ∃ t, exec (.loadm ra a) s = .next t ∧ RegWritten s t ra (s.memRead a) ∧
        t.lastResult = s.memRead a ∧ t.curMem = some a ∧ SameMem s t ∧ Advanced s t

/-- 41_memory_and_move, STORE; that `last_result` is the stored value is the spec's own decision D23 (log 13);
the order and the lexical form of the words of its line are
the spec's own decisions D13 and D14 (log 18, log 19). -/
def Obligations.StoreStoresTheRegister : Prop :=
  (∀ (ra : RegIx) (a : Byte), Spelled (.store ra a) (0x10 + ra.toNat) a.toNat
      [['S', 'T', 'O', 'R', 'E'], regText ra, byteText a]) ∧
    ∀ (ra : RegIx) (a : Byte) (s : State), s.Executing → s.Advances →
      ∃ t, exec (.store ra a) s = .next t ∧ MemWritten s t a (s.readReg ra) ∧
        t.lastResult = s.readReg ra ∧ t.curMem = some a ∧ SameRegs s t ∧ Advanced s t

/-- 41_memory_and_move, LOADC, and 50_assembler section 3; the order and the lexical form of the words of its line are
the spec's own decisions D13 and D14 (log 18, log 19). -/
def Obligations.LoadcLoadsTheConstant : Prop :=
  (∀ (ra : RegIx) (v : Byte), Spelled (.loadc ra v) (0x70 + ra.toNat) v.toNat
      [['L', 'O', 'A', 'D', 'C'], regText ra, byteText v]) ∧
    ∀ (ra : RegIx) (v : Byte) (s : State), s.Executing → s.Advances →
      ∃ t, exec (.loadc ra v) s = .next t ∧ RegWritten s t ra v ∧ t.lastResult = v ∧
        t.curMem = none ∧ SameMem s t ∧ Advanced s t

/-- 41_memory_and_move, COPY; that `last_result` is unchanged is the spec's own decision D8, and the zero
low nibble of `b1` its decision D6 (log 11, log 10); the order and the lexical form of the words of its line are
the spec's own decisions D13 and D14 (log 18, log 19). -/
def Obligations.CopyMovesAndKeepsTheCondition : Prop :=
  (∀ ra rb : RegIx, Spelled (.copy ra rb) (0x80 + ra.toNat) (16 * rb.toNat)
      [['C', 'O', 'P', 'Y'], regText ra, regText rb]) ∧
    ∀ (ra rb : RegIx) (s : State), s.Executing → s.Advances →
      ∃ t, exec (.copy ra rb) s = .next t ∧ RegWritten s t ra (s.readReg rb) ∧
        t.lastResult = s.lastResult ∧ t.curMem = none ∧ SameMem s t ∧ Advanced s t

/-- 42_arithmetic, ADD, and 50_assembler section 3; the order and the lexical form of the words of its line are
the spec's own decisions D13 and D14 (log 18, log 19). -/
def Obligations.AddWritesTheSumModulo256 : Prop :=
  (∀ ra rb rc : RegIx, Spelled (.add ra rb rc) (0x30 + ra.toNat) (16 * rb.toNat + rc.toNat)
      [['A', 'D', 'D'], regText ra, regText rb, regText rc]) ∧
    ∀ (ra rb rc : RegIx) (s : State), s.Executing → s.Advances →
      ∃ t r, exec (.add ra rb rc) s = .next t ∧
        r.toNat = ((s.readReg rb).toNat + (s.readReg rc).toNat) % 256 ∧
        RegWritten s t ra r ∧ t.lastResult = r ∧
        (t.lastResult = 0 ↔ (s.readReg rb).toNat + (s.readReg rc).toNat = 0 ∨
          (s.readReg rb).toNat + (s.readReg rc).toNat = 256) ∧
        t.curMem = none ∧ SameMem s t ∧ Advanced s t

/-- 42_arithmetic, SUB, and 50_assembler section 3; the order and the lexical form of the words of its line are
the spec's own decisions D13 and D14 (log 18, log 19). -/
def Obligations.SubWritesTheDifferenceModulo256 : Prop :=
  (∀ ra rb rc : RegIx, Spelled (.sub ra rb rc) (0x40 + ra.toNat) (16 * rb.toNat + rc.toNat)
      [['S', 'U', 'B'], regText ra, regText rb, regText rc]) ∧
    ∀ (ra rb rc : RegIx) (s : State), s.Executing → s.Advances →
      ∃ t r, exec (.sub ra rb rc) s = .next t ∧
        (r.toNat : Int) = ((s.readReg rb).toNat - (s.readReg rc).toNat : Int) % 256 ∧
        RegWritten s t ra r ∧ t.lastResult = r ∧
        (t.lastResult = 0 ↔ s.readReg rb = s.readReg rc) ∧
        t.curMem = none ∧ SameMem s t ∧ Advanced s t

/-- 42_arithmetic, DEC, and 50_assembler section 3; that its second byte is ignored is the spec's own decision
D6 (log 10), the lexical form of its line decision D14 (log 19). -/
def Obligations.DecWrapsAndRecords : Prop :=
  (∀ ra : RegIx, Spelled (.dec ra) (0x50 + ra.toNat) 0x00 [['D', 'E', 'C'], regText ra] ∧
      ∀ b1 : Byte, decode (BitVec.ofNat 8 (0x50 + ra.toNat)) b1 = .instr (.dec ra)) ∧
    ∀ (ra : RegIx) (s : State), s.Executing → s.Advances →
      ∃ t r, exec (.dec ra) s = .next t ∧
        (r.toNat : Int) = ((s.readReg ra).toNat - 1 : Int) % 256 ∧
        RegWritten s t ra r ∧ t.lastResult = r ∧ (t.lastResult = 0 ↔ s.readReg ra = 1) ∧
        t.curMem = none ∧ SameMem s t ∧ Advanced s t

/-- 42_arithmetic, INC, and 50_assembler section 3; that its second byte is ignored is the spec's own decision
D6 (log 10), the lexical form of its line decision D14 (log 19). -/
def Obligations.IncWrapsAndRecords : Prop :=
  (∀ ra : RegIx, Spelled (.inc ra) (0x60 + ra.toNat) 0x00 [['I', 'N', 'C'], regText ra] ∧
      ∀ b1 : Byte, decode (BitVec.ofNat 8 (0x60 + ra.toNat)) b1 = .instr (.inc ra)) ∧
    ∀ (ra : RegIx) (s : State), s.Executing → s.Advances →
      ∃ t r, exec (.inc ra) s = .next t ∧ r.toNat = ((s.readReg ra).toNat + 1) % 256 ∧
        RegWritten s t ra r ∧ t.lastResult = r ∧ (t.lastResult = 0 ↔ s.readReg ra = 0xFF) ∧
        t.curMem = none ∧ SameMem s t ∧ Advanced s t

/-- 43_control, JUMPZ taken; that `last_result` is unchanged is the spec's own decision D9. -/
def Obligations.JumpzTakenGoesToTheTarget : Prop :=
  ∀ (a : Byte) (s : State), s.Executing → s.lastResult = 0 →
    encode (.jumpz a) = (0x20, a) ∧
      ∃ t, exec (.jumpz a) s = .next t ∧ t.pc = a ∧ t.jumped = true ∧ t.lastResult = s.lastResult ∧
        t.curMem = none ∧ SameRegs s t ∧ SameMem s t ∧ SameControl s t

/-- 43_control, JUMPZ not taken; that `last_result` is unchanged is the spec's own decision D9. -/
def Obligations.JumpzNotTakenFallsThrough : Prop :=
  ∀ (a : Byte) (s : State), s.Executing → s.Advances → s.lastResult ≠ 0 →
    ∃ t, exec (.jumpz a) s = .next t ∧ t.lastResult = s.lastResult ∧ t.curMem = none ∧
      SameRegs s t ∧ SameMem s t ∧ Advanced s t

/-- 43_control, STOP, at every `pc`; that `last_result` is unchanged is the spec's own decision D9 (log 12), the
lexical form of its line decision D14 (log 19). -/
def Obligations.StopHaltsInPlace : Prop :=
  Spelled .stop 0xF0 0x00 [['S', 'T', 'O', 'P']] ∧
    ∀ s : State, s.Executing →
      ∃ t, exec .stop s = .next t ∧ t.status = .halted ∧ t.pc = s.pc ∧ t.lastResult = s.lastResult ∧
        t.jumped = false ∧ t.curMem = none ∧ t.fault = s.fault ∧ t.params = s.params ∧
        SameRegs s t ∧ SameMem s t

/-- R90: the integer laws, in both columns of its table; and no carry, borrow, overflow or sign flag and no
trap: what ADD, SUB, INC and DEC leave is what a LOADC of the 8-bit result leaves. -/
def Obligations.ArithmeticWrapsModulo256 : Prop :=
  (∀ a b : Byte,
    ((addByte a b).toNat = (a.toNat + b.toNat) % 256 ∧
      (addByte a b).toNat =
        if a.toNat + b.toNat ≤ 255 then a.toNat + b.toNat else a.toNat + b.toNat - 256) ∧
    (((subByte a b).toNat : Int) = (a.toNat - b.toNat : Int) % 256 ∧
      ((subByte a b).toNat : Int) =
        if b.toNat ≤ a.toNat then (a.toNat : Int) - b.toNat else (a.toNat : Int) - b.toNat + 256) ∧
    ((incByte a).toNat = (a.toNat + 1) % 256 ∧
      (incByte a).toNat = if a.toNat ≤ 254 then a.toNat + 1 else 0) ∧
    (((decByte a).toNat : Int) = (a.toNat - 1 : Int) % 256 ∧
      (decByte a).toNat = if 1 ≤ a.toNat then a.toNat - 1 else 255)) ∧
    ∀ (ra rb rc : RegIx) (s : State),
      let only (i : Instr) (r : Byte) := ∃ t, exec i s = .next t ∧ exec (.loadc ra r) s = .next t
      only (.add ra rb rc) (addByte (s.readReg rb) (s.readReg rc)) ∧
        only (.sub ra rb rc) (subByte (s.readReg rb) (s.readReg rc)) ∧
        only (.inc ra) (incByte (s.readReg ra)) ∧ only (.dec ra) (decByte (s.readReg ra))

/-! ### Frames -/

/-- LOADM, LOADC, COPY, ADD, SUB, DEC, INC in every state: only the destination register, `pc`, what 10_state
says of `last_result` (decisions D8, D9) and `cur_mem`, and the top-of-memory fault (decision D5). -/
def Obligations.FrameOfTheRegisterWriters : Prop :=
  ∀ (i : Instr) (ra : RegIx) (s t : State), destReg i = some ra → exec i s = .next t →
    (∀ r : RegIx, r ≠ ra → t.readReg r = s.readReg r) ∧ SameMem s t ∧ t.jumped = s.jumped ∧
      t.params = s.params ∧ ControlKeptOrTopFault s t ∧
      ((∀ a : Byte, i ≠ .loadm ra a) → t.curMem = s.curMem) ∧
      ((∃ rb, i = .copy ra rb) → t.lastResult = s.lastResult)

/-- STORE in every state: only the cell it addresses, `last_result`, `cur_mem` and `pc`, and the
top-of-memory fault (decision D5). -/
def Obligations.FrameOfStore : Prop :=
  ∀ (ra : RegIx) (addr8 : Byte) (s t : State), exec (.store ra addr8) s = .next t →
    SameRegs s t ∧ (∀ a : Byte, a ≠ dataAddress addr8 → t.memRead a = s.memRead a) ∧ t.jumped = s.jumped ∧
      t.params = s.params ∧ ControlKeptOrTopFault s t

/-- JUMPZ and STOP in every state: no register, no byte of memory, no result, no address
(decision D9; the top-of-memory fault is decision D5). -/
def Obligations.FrameOfControl : Prop :=
  (∀ (a : Byte) (s t : State), exec (.jumpz a) s = .next t →
    SameRegs s t ∧ SameMem s t ∧ t.lastResult = s.lastResult ∧ t.curMem = s.curMem ∧
      t.params = s.params ∧ ControlKeptOrTopFault s t ∧ (s.lastResult ≠ 0 → t.jumped = s.jumped)) ∧
  ∀ s t : State, exec .stop s = .next t →
    SameRegs s t ∧ SameMem s t ∧ t.lastResult = s.lastResult ∧ t.curMem = s.curMem ∧
      t.jumped = s.jumped ∧ t.pc = s.pc ∧ t.fault = s.fault ∧ t.params = s.params

/-! ### Faults and the Step engine -/

/-- 40_execution_cycle section 2 (b), the spec's own decision D5: at 254 under the fault policy an instruction
that neither jumps nor halts keeps all its effects (those it has under `wrap`) and then faults. That a meaning
handed 255, which no Step does under that policy, ends in the same way is the model's own choice (log 9). -/
def Obligations.AdvancePastTheTopFaults : Prop :=
  ∀ (i : Instr) (s : State), s.Executing → 254 ≤ s.pc.toNat → s.params.pcTop = .fault → i ≠ .stop →
    (∀ a : Byte, i = .jumpz a → s.lastResult ≠ 0) →
    ∃ u, exec i { s with params := { s.params with pcTop := .wrap } } = .next u ∧
      exec i s = .next { u with params := s.params, pc := s.pc, status := .faulted,
                                fault := some (.pcOutOfRange s.pc) }

/-- 40_execution_cycle section 2 (a), the spec's own decisions D5, D10: a Step at 255 fetches nothing. -/
def Obligations.FetchAtTheTopFaults : Prop :=
  ∀ s : State, s.status = .running → s.pc = 255 → s.params.pcTop = .fault →
    step s = .next { s with jumped := false, curMem := none, status := .faulted,
                            fault := some (.pcOutOfRange 255) }

/-- 60_exceptions section 2, illegal opcode: nothing but the transients, `status` and `fault` changes. The
form of fault entry is the spec's own decisions D3 and D4. -/
def Obligations.IllegalOpcodeFaultsPrecisely : Prop :=
  ∀ s : State, s.status = .running → s.Fetches → 9 ≤ s.opcode → s.opcode ≤ 14 →
    step s = .next { s with jumped := false, curMem := none, status := .faulted,
                            fault := some (.illegalOpcode s.pc (BitVec.ofNat 4 s.opcode)) }

/-- 40_execution_cycle section 1: a Step of a running machine whose two bytes decode to `i` is `exec` of `i`
on the state with the transients cleared (the spec's own decision D10). That `exec` holds the end of the Step too
is the model's own choice (log 26). -/
def Obligations.StepRunsTheDecodedInstruction : Prop :=
  ∀ (s : State) (i : Instr),
    s.status = .running → s.Fetches → decode (s.memRead s.pc) s.operandByte = .instr i →
    step s = exec i { s with jumped := false, curMem := none }

/-- 40_execution_cycle, no-op Steps (for `faulted`, the spec's own decision D3): a stopped machine never
changes, however often it is stepped. -/
def Obligations.StoppedMachineNeverChanges : Prop :=
  ∀ (k : Nat) (s : State), s.status ≠ .running → Sys2Proof.core.run k s = .next s

/-- 60_exceptions sections 1, 2: no run ends in anything but a state of the machine; a fault is such a state
(log 7, DEDUCED). -/
def Obligations.EveryRunAnswersAState : Prop :=
  ∀ (k : Nat) (s : State), ∃ t, Sys2Proof.core.run k s = .next t

/-- 60_exceptions, "Nothing else faults during execution" (an inference of the spec): a Step enters `faulted`
only at 255 or 254 under the fault policy, or on an opcode 9 to E (the spec's own decisions D4 and D5). -/
def Obligations.NothingElseFaults : Prop :=
  ∀ s t : State, step s = .next t → t.status = .faulted →
    s.status = .faulted ∨ s.status = .running ∧
      ((254 ≤ s.pc.toNat ∧ s.params.pcTop = .fault ∧ t.fault = some (.pcOutOfRange s.pc)) ∨
        (9 ≤ s.opcode ∧ s.opcode ≤ 14 ∧ t.fault = some (.illegalOpcode s.pc (BitVec.ofNat 4 s.opcode))))

/-! ### Encoding -/

/-- 30_encoding section 4 (an inference of the spec): `decode(encode(i)) = i` for every instruction. -/
def Obligations.DecodeUndoesEncode : Prop :=
  ∀ i : Instr, decode (encode i).1 (encode i).2 = .instr i

/-- 30_encoding section 4 (an inference of the spec): `encode(decode(w)) = w` exactly on the words whose
unused bits are zero, that is, the table's canonical words. -/
def Obligations.EncodeUndoesDecodeOnCanonicalWords : Prop :=
  ∀ (b0 b1 : Byte) (i : Instr), decode b0 b1 = .instr i →
    (encode i = (b0, b1) ↔ wordOf b0 b1 &&& i.row.canonMask = i.row.canonMatch)

/-- R58: the opcode alone identifies the instruction, by the table of the rule. -/
def Obligations.OpcodeAloneSelectsTheInstruction : Prop :=
  ∀ b0 b1 : Byte,
    (match decode b0 b1 with
      | .instr i => i.row.mnemonic
      | .illegal _ => "illegal") =
    ["LOADM", "STORE", "JUMPZ", "ADD", "SUB", "DEC", "INC", "LOADC", "COPY", "illegal", "illegal",
      "illegal", "illegal", "illegal", "illegal", "STOP"].getD (b0.toNat / 16) ""

/-- 30_encoding section 3: the decoder's fields, the unused bits ignored (the spec's own decision D6). -/
def Obligations.DecoderReadsTheFields : Prop :=
  ∀ b0 b1 : Byte,
    let ra : RegIx := BitVec.ofNat 4 (b0.toNat % 16)
    let rb : RegIx := BitVec.ofNat 4 (b1.toNat / 16)
    let rc : RegIx := BitVec.ofNat 4 (b1.toNat % 16)
    (b0.toNat / 16 = 0 → decode b0 b1 = .instr (.loadm ra b1)) ∧
    (b0.toNat / 16 = 1 → decode b0 b1 = .instr (.store ra b1)) ∧
    (b0.toNat / 16 = 2 → decode b0 b1 = .instr (.jumpz b1)) ∧
    (b0.toNat / 16 = 3 → decode b0 b1 = .instr (.add ra rb rc)) ∧
    (b0.toNat / 16 = 4 → decode b0 b1 = .instr (.sub ra rb rc)) ∧
    (b0.toNat / 16 = 5 → decode b0 b1 = .instr (.dec ra)) ∧
    (b0.toNat / 16 = 6 → decode b0 b1 = .instr (.inc ra)) ∧
    (b0.toNat / 16 = 7 → decode b0 b1 = .instr (.loadc ra b1)) ∧
    (b0.toNat / 16 = 8 → decode b0 b1 = .instr (.copy ra rb)) ∧
    (9 ≤ b0.toNat / 16 → b0.toNat / 16 ≤ 14 →
      decode b0 b1 = .illegal (BitVec.ofNat 4 (b0.toNat / 16))) ∧
    (b0.toNat / 16 = 15 → decode b0 b1 = .instr .stop)

/-- 95_test_vectors 2.1 and 2.2: words written out from the encodings. That 2F 10, 5A 77, 6A FF, 83 2F and
F5 33 decode in spite of their unused bits is the spec's own decision D6 (log 10). -/
def Obligations.WrittenOutWordsDecode : Prop :=
  decode 0x0F 0xFF = .instr (.loadm 15 0xFF) ∧ decode 0x11 0x40 = .instr (.store 1 0x40) ∧
    decode 0x2F 0x10 = .instr (.jumpz 0x10) ∧ decode 0x3F 0xED = .instr (.add 15 14 13) ∧
    decode 0x42 0x01 = .instr (.sub 2 0 1) ∧ decode 0x5A 0x77 = .instr (.dec 10) ∧
    decode 0x6A 0xFF = .instr (.inc 10) ∧ decode 0x70 0x05 = .instr (.loadc 0 0x05) ∧
    decode 0x83 0x2F = .instr (.copy 3 2) ∧ decode 0xF5 0x33 = .instr .stop ∧
    decode 0xEF 0xFF = .illegal 14

/-! ### Rules of the whole machine -/

/-- 20_memory section 1: a Step changes a cell only by a STORE, at its operand byte. -/
def Obligations.OnlyStoreWritesMemory : Prop :=
  ∀ (s t : State) (a : Byte), step s = .next t → t.memRead a ≠ s.memRead a →
    s.status = .running ∧ s.opcode = 1 ∧ a = s.operandByte ∧ t.memRead a = s.readReg s.raField

/-- 10_state section 1: a Step changes a register only if it is the `ra` field of an instruction that writes
one. -/
def Obligations.OnlyTheDestinationRegisterIsWritten : Prop :=
  ∀ (s t : State) (r : RegIx), step s = .next t → t.readReg r ≠ s.readReg r →
    s.status = .running ∧ r = s.raField ∧ s.opcode ∈ [0, 3, 4, 5, 6, 7, 8]

/-- 43_control, control transfer: `pc` stays, or advances by two, or is a taken JUMPZ's operand byte. -/
def Obligations.OnlyJumpzWritesPcOtherThanByTwo : Prop :=
  ∀ s t : State, step s = .next t →
    t.pc = s.pc ∨ t.pc.toNat = (s.pc.toNat + 2) % 256 ∨
      (s.status = .running ∧ s.opcode = 2 ∧ s.lastResult = 0 ∧ t.jumped = true ∧ t.pc = s.operandByte)

/-- 10_state, status: the only transition to `halted` is executing STOP, and `pc` then is its address. -/
def Obligations.OnlyStopHalts : Prop :=
  ∀ s t : State, step s = .next t → t.status = .halted → s.status ≠ .halted →
    s.status = .running ∧ s.opcode = 15 ∧ t.pc = s.pc

/-- 10_state, `jumped` (clearing point: the spec's own decision D10): after a Step that executes, `jumped` is
set exactly if it was a taken JUMPZ. -/
def Obligations.JumpedExactlyAfterATakenJumpz : Prop :=
  ∀ s t : State, s.status = .running → step s = .next t →
    (t.jumped = true ↔ s.Fetches ∧ s.opcode = 2 ∧ s.lastResult = 0)

/-- 10_state, `last_result` (the spec's own decisions D8, D9 and, for STORE, D23): a Step changes it only by one
of its seven writers, to the value of the written register or cell. -/
def Obligations.LastResultHasSevenWriters : Prop :=
  ∀ s t : State, step s = .next t → t.lastResult ≠ s.lastResult →
    s.status = .running ∧
      ((s.opcode ∈ [0, 3, 4, 5, 6, 7] ∧ t.lastResult = t.readReg s.raField) ∨
        (s.opcode = 1 ∧ t.lastResult = t.memRead s.operandByte))

/-- 10_state, `cur_mem` and `jumped` have no effect on execution (decision D10). -/
def Obligations.TransientsDoNotAffectExecution : Prop :=
  ∀ (s : State) (j : Bool) (c : Option Byte),
    s.status = .running → step { s with jumped := j, curMem := c } = step s

/-- 20_memory, self-modifying code (decision D12): a STORE of F0 over the next instruction halts the machine
at it. -/
def Obligations.StoreIntoTheNextInstructionIsFetched : Prop :=
  ∀ (s : State) (ra : RegIx), s.status = .running → s.pc.toNat < 253 → s.readReg ra = 0xF0 →
    s.memRead s.pc = (encode (.store ra (s.pc + 2))).1 → s.operandByte = s.pc + 2 →
    ∃ t, Sys2Proof.core.run 2 s = .next t ∧ t.status = .halted ∧ t.pc = s.pc + 2

/-- 70_reset_and_hazards section 3, 43_control JUMPZ (decision D9): a taken JUMPZ to itself repeats for
ever. -/
def Obligations.JumpToItselfNeverEnds : Prop :=
  ∀ (k : Nat) (s : State),
    s.status = .running → s.Fetches → s.opcode = 2 → s.operandByte = s.pc → s.lastResult = 0 →
    ∃ t, Sys2Proof.core.run k s = .next t ∧ t.status = .running ∧ t.pc = s.pc ∧
      t.lastResult = 0 ∧ SameRegs s t ∧ SameMem s t

/-- 10_state section 2 (decision D7): a Step changes the parity of `pc` only by a taken jump. -/
def Obligations.ParityOfPcChangesOnlyByAJump : Prop :=
  ∀ s t : State, step s = .next t → t.jumped = false → t.pc.toNat % 2 = s.pc.toNat % 2

/-! ### Invariants and reset -/

/-- 10_state section 5, 60_exceptions: every Step keeps the machine's whole invariant (`State.Coherent`), from
every state that has it. Its clause that the memory is in canonical form is the model's own choice (log 28); the
others rest on the spec's own decisions D3, D4, D5, D9 (log 12: a jump leaves the zero in `last_result`), D10 and
D23. -/
def Obligations.StepKeepsCoherence : Prop :=
  ∀ s t : State, s.Coherent → step s = .next t → t.Coherent

/-- The same invariant after Reset, for every value of the open parameters (the reset values are the spec's own
decision D1, log 3 to 6). Its clause that the memory is in canonical form is the model's own choice (log 28). -/
def Obligations.ResetIsCoherent : Prop :=
  ∀ p : Params, (State.init p).Coherent

/-- 10_state, state invariants (an inference of the spec): every sequence of the host's operations keeps
`fault != none` exactly when `status = faulted`. That it keeps the memory's canonical form (log 28) and the
parameters in the state (log 1) is about the model's own choices. -/
def Obligations.HostOperationsKeepTheInvariant : Prop :=
  ∀ (ops : List HostOp) (b b' : Block), b.cpu.HostInv → b.run ops = .next b' →
    b'.cpu.HostInv ∧ b'.cpu.params = b.cpu.params

/-- 10_state, state invariants (an inference of the spec): once stopped, nothing but Reset or Load changes the
CPU. -/
def Obligations.OnlyResetOrLoadMovesAStoppedMachine : Prop :=
  ∀ (ops : List HostOp) (b b' : Block), b.cpu.status ≠ .running →
    (∀ op ∈ ops, op = .step ∨ ∃ src start, op = .assemble src start) →
    b.run ops = .next b' → b'.cpu = b.cpu

/-- 15_interfaces, Reset (the values are the spec's own decisions D1, D3, D10; that the open parameters stand in
the state and stay is the model's own choice, log 1). -/
def Obligations.ResetLeavesTheNamedValues : Prop :=
  ∀ s : State, let t := hostReset s
    (∀ r : RegIx, t.readReg r = s.params.resetReg) ∧ (∀ a : Byte, t.memRead a = s.params.resetMem) ∧ t.pc = 0 ∧
      t.lastResult = s.params.resetLast ∧ t.status = .running ∧ t.fault = none ∧
      t.jumped = false ∧ t.curMem = none ∧ t.params = s.params

/-! ### Load -/

/-- R139: a longer image is cut to the first `256 - start` bytes, without error or status change. -/
def Obligations.LoadTruncatesWithoutError : Prop :=
  ∀ (bytes : List Byte) (start : Nat) (s : State), start < 256 →
    load bytes start s = load (bytes.take (256 - start)) start s ∧
      ∃ t, load bytes start s = .next t ∧ t.status = s.status ∧
        ∀ j : Nat, j < min bytes.length (256 - start) →
          t.memRead (BitVec.ofNat 8 (start + j)) = bytes.getD j 0

/-- 15_interfaces, Load: the cells of the image hold it, every other cell and all other state is as before
(that last clause is the spec's own decision D11). -/
def Obligations.LoadWritesTheImageAndPcOnly : Prop :=
  ∀ (bytes : List Byte) (start : Nat) (s : State), start < 256 →
    ∃ t, load bytes start s = .next t ∧ t.pc.toNat = start ∧
      (∀ a : Byte, t.memRead a =
        if start ≤ a.toNat ∧ a.toNat < start + min bytes.length (256 - start) then
          bytes.getD (a.toNat - start) 0
        else s.memRead a) ∧
      SameRegs s t ∧ t.lastResult = s.lastResult ∧ SameControl s t ∧ t.jumped = s.jumped ∧
      t.curMem = s.curMem

/-- 15_interfaces, constraints on `start` (the spec's own decisions D11, D22). -/
def Obligations.StartAbove255IsRefused : Prop :=
  ∀ start : Nat, 256 ≤ start →
    (∀ (bytes : List Byte) (s : State), load bytes start s = .refused (.startOutOfRange start)) ∧
      ∀ (pol : LabelOverflow) (src : Text), assemble pol src start = .refused (.startOutOfRange start)

/-! ### The assembler -/

/-- 15_interfaces, 50_assembler, 60_exceptions section 3: an Assemble answers a block with the same CPU,
whether it succeeds or fails, and with its outputs or its one error. That the outputs of an earlier success
stay for display after a failure is the model's choice (log 29). -/
def Obligations.AssembleLeavesTheCpuAlone : Prop :=
  ∀ (b : Block) (src : Text) (start : Nat), start < 256 →
    ∃ b', b.apply (.assemble src start) = .next b' ∧ b'.cpu = b.cpu ∧
      match assembleLines b.cpu.params.labelOverflow (splitLines src) (BitVec.ofNat 8 start) with
      | .ok out => b'.asm = some out ∧ b'.asmError = none
      | .error e => b'.asm = b.asm ∧ b'.asmError = some e

/-- 50_assembler sections 3 to 5, the two passes against the source read line by line: the source lines, the
label table and the bytes, each jump's label resolved. That the table lists its labels in the order of
declaration is the model's own choice (log 23). The spec's own decisions are: the stored lines are the lines as
written (D21, log 23), a jump's byte is its label's address modulo 256 (D16, log 21), and the operand order and
the lexical form of a line (D13, D14, log 18, log 19). -/
def Obligations.AssemblerTranslatesTheSource : Prop :=
  ∀ (pol : LabelOverflow) (lines : List Text) (start : Byte) (out : AsmOutput),
    assembleLines pol lines start = .ok out →
    out.lines = emittedLines lines ∧ out.labels = labelTable start.toNat 0 lines ∧
      out.bytes = (emittedLines lines).flatMap (lineBytes out.labels) ∧
      ∀ line ∈ lines, ∀ name : Text, parseForm (normalize line) = some (.jump name) →
        (lookupLabel out.labels name).isSome = true

/-- 50_assembler, the converse: a source whose lines are all blank or of a form, whose labels are declared
once and (under `reject`) at addresses up to 255, and whose jumps are declared, assembles. It rests on the spec's
own decisions D14, D15 and D16. -/
def Obligations.GoodSourceAssembles : Prop :=
  ∀ (pol : LabelOverflow) (lines : List Text) (start : Byte),
    (∀ line ∈ lines, normalize line = [] ∨ (parseForm (normalize line)).isSome = true) →
    (lines.filterMap declaredName).Nodup →
    (pol = .reject → ∀ e ∈ labelTable start.toNat 0 lines, e.2 ≤ 255) →
    (∀ line ∈ lines, ∀ name : Text, parseForm (normalize line) = some (.jump name) →
      name ∈ lines.filterMap declaredName) →
    ∃ out, assembleLines pol lines start = .ok out

/-- 50_assembler section 5, with the bytes of 30_encoding section 4 and 50_assembler section 4: two bytes an
instruction, in program order, and an empty source gives an empty stream. That a jump's second byte is its label's
address modulo 256 is the spec's own decision D16 (log 21), and that the stored lines are the lines as written
D21 (log 23). -/
def Obligations.ObjectStreamIsTwoBytesPerInstruction : Prop :=
  (∀ (pol : LabelOverflow) (lines : List Text) (start : Byte) (out : AsmOutput),
    assembleLines pol lines start = .ok out →
    out.bytes.length = 2 * out.lines.length ∧
      ∀ (k : Nat) (line : Text), out.lines[k]? = some line →
        [out.bytes.getD (2 * k) 0, out.bytes.getD (2 * k + 1) 0] = lineBytes out.labels line) ∧
  ∀ (pol : LabelOverflow) (lines : List Text) (start : Byte), (∀ line ∈ lines, normalize line = []) →
    assembleLines pol lines start = .ok ⟨[], [], []⟩

/-- 50_assembler sections 3 and 5: a label is recorded at twice the number of instructions before it plus the
start offset, and its declaration contributes no bytes. That the stored lines are the lines as written is the
spec's own decision D21 (log 23). -/
def Obligations.LabelIsTwiceTheCountPlusStart : Prop :=
  ∀ (pol : LabelOverflow) (before : List Text) (line : Text) (after : List Text) (start : Byte)
      (out : AsmOutput) (name : Text),
    assembleLines pol (before ++ line :: after) start = .ok out → declaredName line = some name →
    lookupLabel out.labels name = some (2 * (emittedLines before).length + start.toNat) ∧
      out.lines = emittedLines before ++ emittedLines after ∧ out.bytes.length = 2 * out.lines.length

/-- R121: the first non-blank line of no form is reported, by its position. -/
def Obligations.FirstUnrecognizedLineIsReported : Prop :=
  ∀ (pol : LabelOverflow) (before : List Text) (line : Text) (after : List Text) (start : Byte)
      (r : AsmRun),
    pass1 pol (AsmRun.empty start) 1 before = .ok r →
    normalize line ≠ [] → parseForm (normalize line) = none →
    assembleLines pol (before ++ line :: after) start = .error (.unrecognizedLine (before.length + 1))

/-- R120: a jump to a label never declared is reported in pass 2, the first in program order. -/
def Obligations.FirstUnknownLabelIsReported : Prop :=
  ∀ (pol : LabelOverflow) (before : List Text) (line : Text) (after : List Text) (start : Byte)
      (r : AsmRun) (name : Text),
    pass1 pol (AsmRun.empty start) 1 (before ++ line :: after) = .ok r →
    parseForm (normalize line) = some (.jump name) → lookupLabel r.labels name = none →
    (∀ l ∈ before, ∀ m, parseForm (normalize l) = some (.jump m) →
      (lookupLabel r.labels m).isSome = true) →
    assembleLines pol (before ++ line :: after) start =
      .error (.unknownLabel (before.length + 1) name)

/-- 50_assembler, duplicate labels and label addresses above 255 (the spec's own decisions D15, D16, D17). -/
def Obligations.SecondDeclarationAndOverflowAreReported : Prop :=
  ∀ (pol : LabelOverflow) (before : List Text) (line : Text) (after : List Text) (start : Byte)
      (r : AsmRun) (name : Text),
    pass1 pol (AsmRun.empty start) 1 before = .ok r →
    declaredName line = some name →
    let a := 2 * (emittedLines before).length + start.toNat
    (name ∈ before.filterMap declaredName →
      assembleLines pol (before ++ line :: after) start =
        .error (.duplicateLabel (before.length + 1) name)) ∧
    (name ∉ before.filterMap declaredName → 255 < a → pol = .reject →
      assembleLines pol (before ++ line :: after) start =
        .error (.labelOverflow (before.length + 1) name a))

/-- 50_assembler: every key of an output's label table is one or more letters A to Z (the spec's own decision D14,
log 19), no name stands in it twice (D15, log 20), and under `reject` no address is above 255 (D16, log 21). -/
def Obligations.LabelTablesAreWellFormed : Prop :=
  ∀ (pol : LabelOverflow) (lines : List Text) (start : Byte) (out : AsmOutput),
    assembleLines pol lines start = .ok out →
    labelsWf out.labels = true ∧ (pol = .reject → ∀ e ∈ out.labels, e.2 ≤ 255)

/-- 50_assembler (the spec's own decision D14): the letter case of a source and the blanks around its lines change
neither the bytes nor the labels nor the error, and the stored lines, as written (decision D21), change with it. -/
def Obligations.CaseAndOuterBlanksDoNotMatter : Prop :=
  ∀ (pol : LabelOverflow) (lines : List Text) (start : Byte),
    (∀ out : AsmOutput, assembleLines pol lines start = .ok out →
      assembleLines pol (lines.map normalize) start =
        .ok ⟨out.bytes, out.labels, out.lines.map normalize⟩) ∧
    ∀ e : AsmError, assembleLines pol lines start = .error e →
      assembleLines pol (lines.map normalize) start = .error e

/-- 50_assembler, start offset: it shifts every label alike and changes no byte of an instruction other than
JUMPZ (the range of the offset is decision D22). -/
def Obligations.StartShiftsTheLabelsAlike : Prop :=
  ∀ (pol : LabelOverflow) (lines : List Text) (start start' : Byte) (out out' : AsmOutput),
    assembleLines pol lines start = .ok out →
    assembleLines pol lines start' = .ok out' →
    out.lines = out'.lines ∧
      (∀ (name : Text) (a : Nat), lookupLabel out.labels name = some a →
        ∃ a', lookupLabel out'.labels name = some a' ∧ a + start'.toNat = a' + start.toNat) ∧
      ∀ (k : Nat) (line : Text), out.lines[k]? = some line →
        (∀ name : Text, parseForm (normalize line) ≠ some (.jump name)) →
        out.bytes.getD (2 * k) 0 = out'.bytes.getD (2 * k) 0 ∧
          out.bytes.getD (2 * k + 1) 0 = out'.bytes.getD (2 * k + 1) 0

/-- 50_assembler, matching (an inference of the spec): a line has at most one of the eleven forms. -/
def Obligations.FormsAreMutuallyExclusive : Prop :=
  ∀ t : Text, (matchingForms t).length ≤ 1

/-- 50_assembler, the forms: a parsed line is a well-formed form, so no accepted line is a JUMPZ of fixed
bytes and every label name is a word of letters (decision D14). -/
def Obligations.ParsedLinesAreWellFormed : Prop :=
  ∀ (t : Text) (form : SourceForm), parseForm t = some form → form.wf = true

/-- 50_assembler, lines: lines joined by LF or by CR LF are split back. That LF and CR LF end a line and are no
part of it is the spec's own decision D14. The joined text ends without a terminator, so every instance also
rests on the model's own choice that the text after the last terminator is a line, blank if it is empty
(log 30). -/
def Obligations.JoinedLinesAreSplitBack : Prop :=
  ∀ lines : List Text, lines ≠ [] → (∀ l ∈ lines, '\n' ∉ l ∧ '\r' ∉ l) →
    splitLines (List.intercalate ['\n'] lines) = lines ∧
      splitLines (List.intercalate ['\r', '\n'] lines) = lines

/-- 30_encoding, disassembly (decision D19): the spelling of every instruction but JUMPZ parses to it, and
JUMPZ's is no line of the assembler. -/
def Obligations.DisassemblyParsesBack : Prop :=
  (∀ i : Instr, (∀ a : Byte, i ≠ .jumpz a) → parseForm (normalize (disassemble i)) = some (.instr i)) ∧
    ∀ a : Byte, parseForm (normalize (disassemble (.jumpz a))) = none
end

