-- ==== Sys2Proof/Laws/Lexer.lean ====
section
/-! SUPPORT. The lexer's laws: blanks around and between words, the words of a spelled line, and the reading
of registers and bytes. -/

namespace Sys2Proof.Machine

/-! ### Characters -/

theorem upperChar_idem (c : Char) : upperChar (upperChar c) = upperChar c := by
  unfold upperChar
  split
  · next h =>
    rw [if_neg]
    have h1 : 97 ≤ c.toNat := h.1
    have h2 : c.toNat ≤ 122 := h.2
    have : (Char.ofNat (c.toNat - 32)).toNat = c.toNat - 32 := by
      rw [Char.toNat_ofNat, if_pos]
      simp only [Nat.isValidChar]; omega
    rintro ⟨h3, -⟩
    have h3' : 97 ≤ (Char.ofNat (c.toNat - 32)).toNat := h3
    omega
  · rfl

theorem isBlank_upperChar (c : Char) : isBlank (upperChar c) = isBlank c := by
  unfold upperChar
  split
  · next h =>
    have h1 : 97 ≤ c.toNat := h.1
    have h2 : c.toNat ≤ 122 := h.2
    have hn : (Char.ofNat (c.toNat - 32)).toNat = c.toNat - 32 := by
      rw [Char.toNat_ofNat, if_pos]
      simp only [Nat.isValidChar]; omega
    have key : ∀ d : Char, 33 ≤ d.toNat → isBlank d = false := by
      intro d hd
      simp only [isBlank, Bool.or_eq_false_iff, decide_eq_false_iff_not]
      refine ⟨?_, ?_⟩ <;> rintro rfl <;> revert hd <;> decide
    rw [key _ (by omega), key _ (by omega)]
  · rfl

/-! ### Tokens -/

theorem tokens_blank {c : Char} (h : isBlank c = true) (t : Text) : tokens (c :: t) = tokens t := by
  simp [tokens, h]

theorem tokens_eq_nil (t : Text) : tokens t = [] ↔ ∀ c ∈ t, isBlank c = true := by
  induction t with
  | nil => simp [tokens]
  | cons c t ih =>
    unfold tokens
    split
    · next h => simp [ih, h]
    · next h =>
      simp only [List.forall_mem_cons, h, false_and, iff_false, Bool.false_eq_true]
      split
      · simp
      · split
        · simp
        · split <;> simp

theorem tokens_dropWhile (t : Text) : tokens (t.dropWhile isBlank) = tokens t := by
  induction t with
  | nil => rfl
  | cons c t ih =>
    by_cases h : isBlank c = true
    · rw [List.dropWhile_cons_of_pos h, ih, tokens_blank h]
    · rw [List.dropWhile_cons_of_neg h]

/-- Blanks at the end of a line make no token. -/
theorem tokens_append_blanks (t u : Text) (hu : ∀ c ∈ u, isBlank c = true) :
    tokens (t ++ u) = tokens t := by
  have hu' : tokens u = [] := (tokens_eq_nil u).2 hu
  induction t with
  | nil => simpa [tokens] using hu'
  | cons c t ih =>
    cases t with
    | nil =>
      cases u with
      | nil => simp
      | cons d u =>
        have hd : isBlank d = true := hu d (by simp)
        have : tokens (d :: u) = [] := hu'
        simp [tokens, hd] at this ⊢
        simp [this]
    | cons d t =>
      simp only [List.cons_append] at ih ⊢
      rw [tokens, tokens, ih]

theorem tokens_trim (t : Text) : tokens (trim t) = tokens t := by
  have h : ∀ l : Text, ∃ u : Text, (∀ c ∈ u, isBlank c = true) ∧
      l = (l.reverse.dropWhile isBlank).reverse ++ u := by
    intro l
    refine ⟨(l.reverse.takeWhile isBlank).reverse, ?_, ?_⟩
    · intro c hc
      exact List.mem_takeWhile_imp (List.mem_reverse.1 hc)
    · rw [← List.reverse_append, List.takeWhile_append_dropWhile, List.reverse_reverse]
  obtain ⟨u, hu, he⟩ := h (t.dropWhile isBlank)
  have := tokens_append_blanks (trim t) u hu
  rw [← tokens_dropWhile t, he]
  exact this.symm

/-- The tokens that are matched are those of the upper-cased line. -/
theorem tokens_normalize (line : Text) : tokens (normalize line) = tokens (line.map upperChar) :=
  tokens_trim _

theorem trim_eq_nil (t : Text) : trim t = [] ↔ ∀ c ∈ t, isBlank c = true := by
  rw [← tokens_eq_nil t, ← tokens_trim t]
  constructor
  · rintro h; rw [h]; rfl
  · intro h
    have hb := (tokens_eq_nil _).1 h
    cases hx : trim t with
    | nil => rfl
    | cons c u =>
      exfalso
      have hlast : ∃ d ∈ trim t, isBlank d = false := by
        unfold trim at hx ⊢
        cases hr : (t.dropWhile isBlank).reverse.dropWhile isBlank with
        | nil => rw [hr] at hx; simp at hx
        | cons d v =>
          refine ⟨d, by simp, ?_⟩
          have := List.head_dropWhile_not (p := isBlank) (l := (t.dropWhile isBlank).reverse)
            (w := by rw [hr]; simp)
          simpa [hr] using this
      obtain ⟨d, hd, hf⟩ := hlast
      rw [hb d hd] at hf
      cases hf

theorem trim_trim (t : Text) : trim (trim t) = trim t := by
  unfold trim
  set v := (t.dropWhile isBlank).reverse.dropWhile isBlank with hv
  have hv' : v.dropWhile isBlank = v := by rw [hv, List.dropWhile_idempotent]
  suffices h : v.reverse.dropWhile isBlank = v.reverse by
    rw [h, List.reverse_reverse, hv']
  cases hd : v.reverse with
  | nil => rfl
  | cons c u =>
    have : v <:+ (t.dropWhile isBlank).reverse := List.dropWhile_suffix _
    have hp : v.reverse <+: t.dropWhile isBlank := by
      simpa using List.reverse_prefix.2 this
    rw [hd] at hp
    obtain ⟨w, hw⟩ := hp
    have hne : t.dropWhile isBlank ≠ [] := by rw [← hw]; simp
    have := List.head_dropWhile_not (p := isBlank) (l := t) (w := hne)
    have hc : isBlank c = false := by simpa [← hw] using this
    exact List.dropWhile_cons_of_neg (by simp [hc])

theorem dropWhile_map_upper (t : Text) :
    (t.map upperChar).dropWhile isBlank = (t.dropWhile isBlank).map upperChar := by
  rw [List.dropWhile_map]
  congr 2
  exact funext isBlank_upperChar

theorem trim_map_upper (t : Text) : trim (t.map upperChar) = (trim t).map upperChar := by
  unfold trim
  rw [dropWhile_map_upper, ← List.map_reverse, dropWhile_map_upper, ← List.map_reverse]

theorem normalize_normalize (line : Text) : normalize (normalize line) = normalize line := by
  have : upperChar ∘ upperChar = upperChar := funext upperChar_idem
  unfold normalize
  rw [← trim_map_upper, trim_trim, List.map_map, this]

/-! ### Spelled lines -/

/-- A word that the lexer leaves alone: not empty, no blank, nothing to upper-case. -/
def Plain (w : Text) : Prop := w ≠ [] ∧ ∀ c ∈ w, isBlank c = false ∧ upperChar c = c

theorem tokens_word {w : Text} (hw : Plain w) (rest : Text) (hr : rest = [] ∨ ∃ d u, rest = d :: u ∧
    isBlank d = true) : tokens (w ++ rest) = w :: tokens rest := by
  obtain ⟨hne, hp⟩ := hw
  induction w with
  | nil => exact absurd rfl hne
  | cons c w ih =>
    have hc : isBlank c = false := (hp c (by simp)).1
    cases w with
    | nil =>
      rcases hr with rfl | ⟨d, u, rfl, hd⟩
      · simp [tokens, hc]
      · simp [tokens, hc, hd]
    | cons d w =>
      have hd : isBlank d = false := (hp d (by simp)).1
      have := ih (by simp) fun x hx => hp x (by simp [hx])
      simp only [List.cons_append] at this ⊢
      rw [tokens]
      simp [hc, hd, this]

/-- The tokens of plain words with one space between them are the words. -/
theorem tokens_spaced (ws : List Text) (h : ∀ w ∈ ws, Plain w) : tokens (spaced ws) = ws := by
  induction ws with
  | nil => rfl
  | cons w ws ih =>
    cases ws with
    | nil =>
      have := tokens_word (h w (by simp)) [] (.inl rfl)
      simpa [spaced, tokens] using this
    | cons v ws =>
      have ih := ih fun x hx => h x (by simp [hx])
      rw [spaced, tokens_word (h w (by simp)) _ (.inr ⟨' ', _, rfl, rfl⟩), tokens_blank rfl, ih]
      simp

theorem spaced_upper (ws : List Text) (h : ∀ w ∈ ws, Plain w) :
    (spaced ws).map upperChar = spaced ws := by
  have hw : ∀ w, Plain w → w.map upperChar = w := fun w hp => by
    conv_rhs => rw [← List.map_id w]
    exact List.map_congr_left fun c hc => (hp.2 c hc).2
  induction ws with
  | nil => rfl
  | cons w ws ih =>
    cases ws with
    | nil => exact hw w (h w (by simp))
    | cons v ws =>
      have ih := ih fun x hx => h x (by simp [hx])
      rw [spaced, List.map_append, List.map_cons, ih, hw w (h w (by simp))]
      · rfl
      · simp

theorem tokens_normalize_spaced (ws : List Text) (h : ∀ w ∈ ws, Plain w) :
    tokens (normalize (spaced ws)) = ws := by
  rw [tokens_normalize, spaced_upper ws h, tokens_spaced ws h]

theorem regText_plain (r : RegIx) : Plain (regText r) := by
  have h : ∀ r : RegIx, isBlank (Char.ofNat ('A'.toNat + r.toNat)) = false ∧
      upperChar (Char.ofNat ('A'.toNat + r.toNat)) = Char.ofNat ('A'.toNat + r.toNat) := by decide
  refine ⟨by simp [regText], ?_⟩
  intro c hc
  rw [List.mem_singleton.1 hc]
  exact h r

theorem byteText_plain (b : Byte) : Plain (byteText b) := by
  refine ⟨by simp [byteText], ?_⟩
  have h : ∀ v : Nibble, isBlank (hexChar v) = false ∧ upperChar (hexChar v) = hexChar v := by decide
  intro c hc
  simp only [byteText, List.mem_cons, List.not_mem_nil, or_false] at hc
  rcases hc with rfl | rfl <;> exact h _

theorem regToken_regText : ∀ r : RegIx, regToken (regText r) = some r := by decide

theorem hexDigit_hexChar : ∀ v : Nibble, hexDigit (hexChar v) = some v.toNat := by decide

theorem byteToken_byteText (b : Byte) : byteToken (byteText b) = some b := by
  simp only [byteToken, byteText, hexDigit_hexChar, Option.some.injEq]
  apply BitVec.eq_of_toNat_eq
  simp [hiNibble, loNibble, Nat.shiftRight_eq_div_pow]
  omega

end Sys2Proof.Machine
end

