-- ==== Sys2Proof/Laws/Assembler.lean ====
section
/-! SUPPORT. What pass 1 and pass 2 do to a source, in closed form (50_assembler R116, R117): the entries they
emit, the labels they record, and when they raise. -/

namespace Sys2Proof.Machine

/-! ### One line -/

/-- The entry pass 1 emits for line `n`, if it emits one (R116). -/
def entryOf (n : Nat) (line : Text) : Option AsmEntry :=
  match parseForm (normalize line) with
  | some (.instr i) => some ⟨line, n, (encode i).1, (encode i).2, false⟩
  | some (.jump _) => some ⟨line, n, placeholder.1, placeholder.2, true⟩
  | _ => none

/-- The entries pass 1 emits for lines numbered from `n`. -/
def entriesFrom : Nat → List Text → List AsmEntry
  | _, [] => []
  | n, line :: lines => (entryOf n line).toList ++ entriesFrom (n + 1) lines

/-- The run after a line that raised nothing. -/
def AsmRun.after (r : AsmRun) (n : Nat) (line : Text) : AsmRun :=
  ⟨r.prog ++ (entryOf n line).toList,
    r.labels ++ ((declaredName line).map (fun name => (name, r.here))).toList, r.start⟩

theorem parseForm_nil : parseForm [] = none := by decide

theorem entryOf_isSome (n : Nat) (line : Text) : (entryOf n line).isSome = emitsEntry line := by
  unfold entryOf emitsEntry
  cases parseForm (normalize line) with
  | none => rfl
  | some f => cases f <;> rfl

theorem entryOf_lineText {n : Nat} {line : Text} {e : AsmEntry} (h : entryOf n line = some e) :
    e.lineText = line ∧ e.n = n := by
  unfold entryOf at h
  split at h <;> cases h <;> exact ⟨rfl, rfl⟩

/-- An entry is pending exactly when its line is a jump, so pass 2 always finds a jump to resolve. -/
theorem entryOf_pending {n : Nat} {line : Text} {e : AsmEntry} (h : entryOf n line = some e)
    (hp : e.pending = true) : ∃ name, parseForm (normalize line) = some (.jump name) := by
  unfold entryOf at h
  split at h <;> cases h
  · cases hp
  · exact ⟨_, by assumption⟩

/-- A line that raises nothing leaves `AsmRun.after`. -/
theorem pass1Line_ok {pol : LabelOverflow} {r r' : AsmRun} {n : Nat} {line : Text}
    (h : pass1Line pol r n line = .ok r') : r' = r.after n line := by
  unfold pass1Line at h
  unfold AsmRun.after entryOf declaredName
  split at h
  · next hb =>
    have : normalize line = [] := by simpa using hb
    cases h
    simp [this, parseForm_nil]
  · split at h
    · next hp => cases h; simp [hp, AsmRun.emit]
    · next hp => cases h; simp [hp, AsmRun.emit]
    · next hp =>
      unfold AsmRun.declare at h
      split at h
      · cases h
      · split at h
        · cases h
        · cases h; simp [hp]
    · cases h

/-- Exactly when a line raises nothing. -/
theorem pass1Line_isOk {pol : LabelOverflow} {r : AsmRun} {n : Nat} {line : Text}
    (hf : normalize line = [] ∨ (parseForm (normalize line)).isSome = true)
    (hd : ∀ name, declaredName line = some name → lookupLabel r.labels name = none)
    (ho : ∀ name, declaredName line = some name → pol = .reject → r.here ≤ 255) :
    pass1Line pol r n line = .ok (r.after n line) := by
  have key : ∃ r', pass1Line pol r n line = .ok r' := by
    unfold pass1Line
    split
    · exact ⟨_, rfl⟩
    · next hb =>
      split
      · exact ⟨_, rfl⟩
      · exact ⟨_, rfl⟩
      · next name hp =>
        have hn : declaredName line = some name := by simp [declaredName, hp]
        have h1 := hd name hn
        have h2 := ho name hn
        unfold AsmRun.declare
        rw [h1]
        rw [if_neg (by simp), if_neg (fun h => by have := h2 h.2; omega)]
        exact ⟨_, rfl⟩
      · next hp =>
        rcases hf with hf | hf
        · simp [hf] at hb
        · simp [hp] at hf
  obtain ⟨r', hr⟩ := key
  rw [hr, pass1Line_ok hr]

/-! ### Pass 1 -/

theorem pass1_cons_ok {pol : LabelOverflow} {r r' : AsmRun} {n : Nat} {line : Text} {lines : List Text}
    (h : pass1 pol r n (line :: lines) = .ok r') :
    pass1Line pol r n line = .ok (r.after n line) ∧ pass1 pol (r.after n line) (n + 1) lines = .ok r' := by
  unfold pass1 at h
  cases hl : pass1Line pol r n line with
  | error e => rw [hl] at h; cases h
  | ok r₁ =>
    rw [hl] at h
    rw [← pass1Line_ok hl]
    exact ⟨rfl, h⟩

/-- Pass 1 over two stretches of lines is pass 1 over the second from where the first ends. -/
theorem pass1_append (pol : LabelOverflow) (a b : List Text) (r : AsmRun) (n : Nat) :
    pass1 pol r n (a ++ b) =
      match pass1 pol r n a with
      | .ok r' => pass1 pol r' (n + a.length) b
      | .error e => .error e := by
  induction a generalizing r n with
  | nil => simp [pass1]
  | cons line a ih =>
    simp only [List.cons_append, pass1]
    cases hl : pass1Line pol r n line with
    | error e => rfl
    | ok r₁ =>
      simp only [ih, List.length_cons]
      have : n + 1 + a.length = n + (a.length + 1) := by omega
      rw [this]

theorem declared_not_emitted {line name : Text} (h : declaredName line = some name) :
    emitsEntry line = false := by
  unfold declaredName at h
  unfold emitsEntry
  split at h
  · next hp => rw [hp]
  · cases h

/-- The run after pass 1, in closed form: the Program, the label table and the start offset. -/
theorem pass1_ok {pol : LabelOverflow} {lines : List Text} {r r' : AsmRun} {n : Nat}
    (h : pass1 pol r n lines = .ok r') :
    r' = ⟨r.prog ++ entriesFrom n lines, r.labels ++ labelTable r.start.toNat r.count lines, r.start⟩ := by
  induction lines generalizing r n with
  | nil => simp only [pass1] at h; cases h; simp [entriesFrom, labelTable]
  | cons line lines ih =>
    obtain ⟨_, h2⟩ := pass1_cons_ok h
    rw [ih h2]
    simp only [AsmRun.after, entriesFrom, List.append_assoc, AsmRun.mk.injEq, true_and, and_true,
      List.append_cancel_left_eq, AsmRun.count, labelTable, AsmRun.here]
    cases hd : declaredName line with
    | some name =>
      have hn : entryOf n line = none := by
        have := entryOf_isSome n line
        rw [declared_not_emitted hd] at this
        simpa using this
      simp [hn]
    | none =>
      have := entryOf_isSome n line
      cases he : emitsEntry line <;> rw [he] at this
      · have : entryOf n line = none := by simpa using this
        simp [this]
      · obtain ⟨e, he⟩ := Option.isSome_iff_exists.1 this
        simp [he]

theorem entriesFrom_lineText (n : Nat) (lines : List Text) :
    (entriesFrom n lines).map (·.lineText) = emittedLines lines := by
  induction lines generalizing n with
  | nil => rfl
  | cons line lines ih =>
    have hs := entryOf_isSome n line
    cases he : entryOf n line with
    | none =>
      rw [he] at hs
      have : emitsEntry line = false := hs.symm
      rw [emittedLines, List.filter_cons_of_neg (by simp [this])]
      simp [entriesFrom, he, ih]
      rfl
    | some e =>
      rw [he] at hs
      have : emitsEntry line = true := hs.symm
      rw [emittedLines, List.filter_cons_of_pos this]
      simp [entriesFrom, he, ih, (entryOf_lineText he).1]
      rfl

theorem entriesFrom_append (n : Nat) (a b : List Text) :
    entriesFrom n (a ++ b) = entriesFrom n a ++ entriesFrom (n + a.length) b := by
  induction a generalizing n with
  | nil => rfl
  | cons line a ih =>
    have : n + 1 + a.length = n + (a.length + 1) := by omega
    simp [entriesFrom, ih, this]

theorem entriesFrom_length (n : Nat) (lines : List Text) :
    (entriesFrom n lines).length = (emittedLines lines).length := by
  rw [← entriesFrom_lineText n, List.length_map]

theorem mem_entriesFrom {n : Nat} {lines : List Text} {e : AsmEntry} (h : e ∈ entriesFrom n lines) :
    ∃ k, ∃ line ∈ lines, entryOf k line = some e := by
  induction lines generalizing n with
  | nil => simp [entriesFrom] at h
  | cons line lines ih =>
    simp only [entriesFrom, List.mem_append, Option.mem_toList] at h
    rcases h with h | h
    · exact ⟨n, line, by simp, h⟩
    · obtain ⟨k, l, hl, he⟩ := ih h
      exact ⟨k, l, by simp [hl], he⟩

/-- Every pending entry of pass 1's Program has a line that is a jump, so pass 2's last case is never
taken (log 22). -/
theorem pass1_pending {pol : LabelOverflow} {lines : List Text} {start : Byte} {r : AsmRun}
    (h : pass1 pol (AsmRun.empty start) 1 lines = .ok r) :
    ∀ e ∈ r.prog, e.pending = true → ∃ name, parseForm (normalize e.lineText) = some (.jump name) := by
  intro e he hp
  rw [pass1_ok h] at he
  simp only [AsmRun.empty, List.nil_append] at he
  obtain ⟨k, line, _, hk⟩ := mem_entriesFrom he
  rw [(entryOf_lineText hk).1]
  exact entryOf_pending hk hp

/-! ### Label tables -/

theorem labelTable_names (start k : Nat) (lines : List Text) :
    (labelTable start k lines).map (·.1) = lines.filterMap declaredName := by
  induction lines generalizing k with
  | nil => rfl
  | cons line lines ih =>
    unfold labelTable
    cases h : declaredName line with
    | none => simp [ih, h]
    | some name => simp [ih, h]

theorem labelTable_append (start k : Nat) (a b : List Text) :
    labelTable start k (a ++ b) =
      labelTable start k a ++ labelTable start (k + (emittedLines a).length) b := by
  induction a generalizing k with
  | nil => simp [labelTable, emittedLines]
  | cons line a ih =>
    simp only [List.cons_append, labelTable]
    cases h : declaredName line with
    | some name => simp [ih, emittedLines, declared_not_emitted h]
    | none =>
      cases he : emitsEntry line
      · simp [ih, emittedLines, he]
      · simp [ih, emittedLines, he]
        congr 1
        omega

theorem lookupLabel_eq_none (labels : List (Text × Nat)) (name : Text) :
    lookupLabel labels name = none ↔ name ∉ labels.map (·.1) := by
  simp only [lookupLabel, Option.map_eq_none_iff, List.find?_eq_none, decide_eq_true_eq, List.mem_map,
    not_exists, not_and]

theorem lookupLabel_isSome (labels : List (Text × Nat)) (name : Text) :
    (lookupLabel labels name).isSome = true ↔ name ∈ labels.map (·.1) := by
  rw [← not_iff_not, ← lookupLabel_eq_none]
  simp

/-- In a table without repeats a name's address is the one listed beside it. -/
theorem lookupLabel_of_mem {labels : List (Text × Nat)} {name : Text} {a : Nat}
    (hn : (labels.map (·.1)).Nodup) (h : (name, a) ∈ labels) : lookupLabel labels name = some a := by
  induction labels with
  | nil => simp at h
  | cons e labels ih =>
    simp only [List.map_cons, List.nodup_cons] at hn
    by_cases he : e.1 = name
    · rcases List.mem_cons.1 h with h | h
      · simp [lookupLabel, ← h]
      · exact absurd (List.mem_map.2 ⟨_, h, rfl⟩) (he ▸ hn.1)
    · rcases List.mem_cons.1 h with h | h
      · exact absurd (by rw [← h]) he
      · have := ih hn.2 h
        simpa [lookupLabel, he] using this

/-- A pass 1 that ends has declared no name twice, and none of the run's names again. -/
theorem pass1_nodup {pol : LabelOverflow} {lines : List Text} {r r' : AsmRun} {n : Nat}
    (h : pass1 pol r n lines = .ok r') (hr : (r.labels.map (·.1)).Nodup) :
    (r'.labels.map (·.1)).Nodup := by
  induction lines generalizing r n with
  | nil => simp only [pass1] at h; cases h; exact hr
  | cons line lines ih =>
    obtain ⟨h1, h2⟩ := pass1_cons_ok h
    refine ih h2 ?_
    cases hd : declaredName line with
    | none => simpa [AsmRun.after, hd] using hr
    | some name =>
      have hp : parseForm (normalize line) = some (.label name) := by
        unfold declaredName at hd
        split at hd
        · next hp => cases hd; exact hp
        · cases hd
      have hne : normalize line ≠ [] := by
        intro h0; rw [h0, parseForm_nil] at hp; cases hp
      have : lookupLabel r.labels name = none := by
        unfold pass1Line at h1
        rw [if_neg (by simpa using hne), hp] at h1
        simp only [AsmRun.declare] at h1
        split at h1
        · cases h1
        · next hs => simpa using hs
      simp only [AsmRun.after, hd, Option.map_some, Option.toList_some, List.map_append, List.map_cons,
        List.map_nil]
      rw [List.nodup_append]
      refine ⟨hr, by simp, ?_⟩
      intro a ha b hb
      simp only [List.mem_singleton] at hb
      rw [hb]
      exact fun e => (lookupLabel_eq_none _ _).1 this (e ▸ ha)

/-- When pass 1 raises nothing: every line blank or of a form, no name declared again, no label too high
under `reject` (R116, R118, R119). -/
theorem pass1_isOk {pol : LabelOverflow} {lines : List Text} {r : AsmRun} {n : Nat}
    (h1 : ∀ line ∈ lines, normalize line = [] ∨ (parseForm (normalize line)).isSome = true)
    (h2 : (r.labels.map (·.1) ++ lines.filterMap declaredName).Nodup)
    (h3 : pol = .reject → ∀ e ∈ labelTable r.start.toNat r.count lines, e.2 ≤ 255) :
    ∃ r', pass1 pol r n lines = .ok r' := by
  induction lines generalizing r n with
  | nil => exact ⟨_, rfl⟩
  | cons line lines ih =>
    have hl : pass1Line pol r n line = .ok (r.after n line) := by
      apply pass1Line_isOk (h1 line (by simp))
      · intro name hn
        rw [lookupLabel_eq_none]
        intro hm
        rw [List.nodup_append] at h2
        exact h2.2.2 name hm name (by simp [hn]) rfl
      · intro name hn hp
        exact h3 hp (name, 2 * r.count + r.start.toNat) (by simp [labelTable, hn])
    rw [pass1, hl]
    apply ih (fun l hl => h1 l (by simp [hl]))
    · cases hd : declaredName line <;> simpa [AsmRun.after, hd] using h2
    · intro hp e he
      apply h3 hp
      have hs := entryOf_isSome n line
      rw [labelTable]
      cases hd : declaredName line with
      | some name =>
        rw [declared_not_emitted hd] at hs
        have hs : entryOf n line = none := by simpa using hs
        simp [AsmRun.after, AsmRun.count, hs] at he
        simp [AsmRun.count, he]
      | none =>
        cases hx : entryOf n line with
        | none =>
          rw [hx] at hs
          have hs : emitsEntry line = false := hs.symm
          simpa [AsmRun.after, AsmRun.count, hx, hs] using he
        | some _ =>
          rw [hx] at hs
          have hs : emitsEntry line = true := hs.symm
          simpa [AsmRun.after, AsmRun.count, hx, hs] using he

/-! ### Pass 2 -/

theorem pass2_append_ok {labels : List (Text × Nat)} {a b c : List AsmEntry}
    (h : pass2 labels (a ++ b) = .ok c) :
    ∃ a' b', pass2 labels a = .ok a' ∧ pass2 labels b = .ok b' ∧ c = a' ++ b' := by
  induction a generalizing c with
  | nil => exact ⟨[], c, rfl, h, rfl⟩
  | cons e a ih =>
    simp only [List.cons_append, pass2] at h ⊢
    cases he : patchEntry labels e with
    | error err => rw [he] at h; cases h
    | ok e' =>
      rw [he] at h
      simp only at h ⊢
      cases hr : pass2 labels (a ++ b) with
      | error err => rw [hr] at h; cases h
      | ok c' =>
        rw [hr] at h
        obtain ⟨a', b', ha, hb, rfl⟩ := ih hr
        cases h
        exact ⟨e' :: a', b', by rw [ha], hb, rfl⟩

theorem pass2_append_error {labels : List (Text × Nat)} {a b a' : List AsmEntry} {err : AsmError}
    (ha : pass2 labels a = .ok a') (hb : pass2 labels b = .error err) :
    pass2 labels (a ++ b) = .error err := by
  induction a generalizing a' with
  | nil => exact hb
  | cons e a ih =>
    simp only [List.cons_append, pass2] at ha ⊢
    cases he : patchEntry labels e with
    | error er => rw [he] at ha; cases ha
    | ok e' =>
      rw [he] at ha
      simp only at ha ⊢
      cases hr : pass2 labels a with
      | error er => rw [hr] at ha; cases ha
      | ok c => rw [ih hr]

/-- The jump of a line, if it has one, names a declared label. -/
def Resolved (labels : List (Text × Nat)) (line : Text) : Prop :=
  ∀ name, parseForm (normalize line) = some (.jump name) → (lookupLabel labels name).isSome = true

/-- Pass 2 on the entry of a resolved line: the line's bytes. -/
theorem patchEntry_resolved {labels : List (Text × Nat)} {n : Nat} {line : Text} {e : AsmEntry}
    (he : entryOf n line = some e) (hr : Resolved labels line) :
    ∃ e', patchEntry labels e = .ok e' ∧ e'.lineText = line ∧ [e'.b0, e'.b1] = lineBytes labels line := by
  unfold entryOf at he
  unfold lineBytes
  split at he
  · next i hp =>
    cases he
    exact ⟨⟨line, n, (encode i).1, (encode i).2, false⟩, by simp [patchEntry], rfl, by simp only [hp]⟩
  · next name hp =>
    cases he
    have hl := hr name hp
    obtain ⟨a, ha⟩ := Option.isSome_iff_exists.1 hl
    refine ⟨⟨line, n, (patchedJump a).1, (patchedJump a).2, false⟩, ?_, rfl, ?_⟩
    · simp [patchEntry, hp, ha]
    · simp only [hp, ha, patchedJump, encode, Option.getD_some]
      congr 2
      apply BitVec.eq_of_toNat_eq
      simp
  · cases he

/-- Pass 2 on the entry of an unresolved line raises (R120). -/
theorem patchEntry_unresolved {labels : List (Text × Nat)} {n : Nat} {line name : Text} {e : AsmEntry}
    (he : entryOf n line = some e) (hp : parseForm (normalize line) = some (.jump name))
    (hl : lookupLabel labels name = none) : patchEntry labels e = .error (.unknownLabel n name) := by
  unfold entryOf at he
  rw [hp] at he
  cases he
  simp [patchEntry, hp, hl]

/-- Pass 2 over the entries of resolved lines: their bytes and lines, in order. -/
theorem pass2_resolved {labels : List (Text × Nat)} {lines : List Text} (n : Nat)
    (h : ∀ line ∈ lines, Resolved labels line) :
    ∃ prog, pass2 labels (entriesFrom n lines) = .ok prog ∧
      objectBytes prog = (emittedLines lines).flatMap (lineBytes labels) ∧
      prog.map (·.lineText) = emittedLines lines := by
  induction lines generalizing n with
  | nil => exact ⟨[], rfl, rfl, rfl⟩
  | cons line lines ih =>
    obtain ⟨prog, hp, hb, hl⟩ := ih (n + 1) (fun l hl => h l (by simp [hl]))
    have hs := entryOf_isSome n line
    cases he : entryOf n line with
    | none =>
      rw [he] at hs
      have hf : emittedLines (line :: lines) = emittedLines lines := by
        rw [emittedLines, List.filter_cons_of_neg (by simp [← hs])]; rfl
      exact ⟨prog, by simpa [entriesFrom, he] using hp, by rw [hf, hb], by rw [hf, hl]⟩
    | some e =>
      rw [he] at hs
      have hf : emittedLines (line :: lines) = line :: emittedLines lines := by
        rw [emittedLines, List.filter_cons_of_pos (by simp [← hs])]; rfl
      obtain ⟨e', h1, h2, h3⟩ := patchEntry_resolved he (h line (by simp))
      refine ⟨e' :: prog, by simp [entriesFrom, he, pass2, h1, hp], ?_, by simp [hf, h2, hl]⟩
      rw [hf, List.flatMap_cons, ← h3, ← hb]
      rfl

/-- A pass 2 that ends resolved every jump. -/
theorem pass2_ok_resolved {labels : List (Text × Nat)} {lines : List Text} {n : Nat}
    {prog : List AsmEntry} (h : pass2 labels (entriesFrom n lines) = .ok prog) :
    ∀ line ∈ lines, Resolved labels line := by
  induction lines generalizing n prog with
  | nil => simp
  | cons line lines ih =>
    rw [entriesFrom] at h
    obtain ⟨a', b', ha, hb, _⟩ := pass2_append_ok h
    intro l hl
    rcases List.mem_cons.1 hl with rfl | hl
    · intro name hp
      cases hx : lookupLabel labels name with
      | some a => rfl
      | none =>
        obtain ⟨e, he⟩ : ∃ e, entryOf n l = some e := by simp [entryOf, hp]
        rw [he] at ha
        simp [pass2, patchEntry_unresolved he hp hx] at ha
    · exact ih hb l hl

/-! ### A line of one instruction -/

/-- The form of a line of plain words. -/
theorem parseForm_spaced {ws : List Text} {form : SourceForm} (h : ∀ w ∈ ws, Plain w)
    (hm : lineForms.filterMap (fun f => f ws) = [form]) :
    parseForm (normalize (spaced ws)) = some form := by
  unfold parseForm matchingForms
  rw [tokens_normalize_spaced ws h, hm]

/-- The encoding and the one-line assembly of an instruction whose words have its form. -/
theorem spelled_of {i : Instr} {b0 b1 : Nat} {ws : List Text} (h : ∀ w ∈ ws, Plain w) (hne : ws ≠ [])
    (he : encode i = (BitVec.ofNat 8 b0, BitVec.ofNat 8 b1))
    (hm : lineForms.filterMap (fun f => f ws) = [.instr i]) : Spelled i b0 b1 ws := by
  refine ⟨he, fun pol start => ?_⟩
  have hp := parseForm_spaced h hm
  have hn : (normalize (spaced ws)).isEmpty = false := by
    cases hx : normalize (spaced ws) with
    | nil =>
      have := tokens_normalize_spaced ws h
      rw [hx] at this
      exact absurd this.symm hne
    | cons => rfl
  simp [assembleLines, pass1, pass1Line, hp, hn, AsmRun.emit, AsmRun.empty, pass2, patchEntry, objectBytes, he]

end Sys2Proof.Machine
end

