-- ==== Sys2Proof/Laws/Decode.lean ====
section
/-! SUPPORT. The nibbles of a byte, and `decode` on a byte made of its nibbles. -/

namespace Sys2Proof

@[simp] theorem hiNibble_append : ∀ a b : Nibble, hiNibble (a ++ b) = a := by decide

@[simp] theorem loNibble_append : ∀ a b : Nibble, loNibble (a ++ b) = b := by decide

theorem nibbles_append (b : Byte) : hiNibble b ++ loNibble b = b := by
  revert b; decide

theorem hiNibble_toNat (b : Byte) : (hiNibble b).toNat = b.toNat / 16 := by
  simp [hiNibble, Nat.shiftRight_eq_div_pow]
  omega

theorem loNibble_toNat (b : Byte) : (loNibble b).toNat = b.toNat % 16 := by
  simp [loNibble]

theorem hiNibble_eq (b : Byte) : hiNibble b = BitVec.ofNat 4 (b.toNat / 16) := by
  apply BitVec.eq_of_toNat_eq
  rw [hiNibble_toNat]
  simp; omega

theorem loNibble_eq (b : Byte) : loNibble b = BitVec.ofNat 4 (b.toNat % 16) := by
  apply BitVec.eq_of_toNat_eq
  rw [loNibble_toNat]
  simp

/-- The decoder by the number in the opcode nibble. -/
theorem decode_eq (b0 b1 : Byte) : decode b0 b1 =
    match b0.toNat / 16 with
    | 0 => .instr (.loadm (loNibble b0) b1)
    | 1 => .instr (.store (loNibble b0) b1)
    | 2 => .instr (.jumpz b1)
    | 3 => .instr (.add (loNibble b0) (hiNibble b1) (loNibble b1))
    | 4 => .instr (.sub (loNibble b0) (hiNibble b1) (loNibble b1))
    | 5 => .instr (.dec (loNibble b0))
    | 6 => .instr (.inc (loNibble b0))
    | 7 => .instr (.loadc (loNibble b0) b1)
    | 8 => .instr (.copy (loNibble b0) (hiNibble b1))
    | 15 => .instr .stop
    | _ => .illegal (hiNibble b0) := by
  rw [← hiNibble_toNat]
  rfl

/-- The decoder answers illegal for the six opcodes without a meaning only, and names the opcode (R61). -/
theorem decode_illegal {b0 b1 : Byte} {op : Nibble} (h : decode b0 b1 = .illegal op) :
    9 ≤ b0.toNat / 16 ∧ b0.toNat / 16 ≤ 14 ∧ op = hiNibble b0 := by
  have : b0.toNat / 16 < 16 := by omega
  rw [decode_eq] at h
  generalize b0.toNat / 16 = n at *
  interval_cases n <;> simp_all

end Sys2Proof
end

