-- ==== Sys2Proof/Laws/Memory.lean ====
section
/-! SUPPORT. The memory laws: a cell reads back what was written, a write leaves every other cell alone, and
every memory operation keeps the canonical form. -/

namespace Sys2Proof.Machine

theorem readCell_dropCell (m : Memory) (k j : Nat) :
    Memory.readCell (Memory.dropCell m k) j =
      if j = k then Memory.unlisted else Memory.readCell m j := by
  unfold Memory.dropCell
  induction m with
  | nil => simp [Memory.readCell]
  | cons c m ih =>
    by_cases hc : c.1 = k
    · by_cases hj : j = k
      · simp_all
      · have : ¬ c.1 = j := fun e => hj (e ▸ hc)
        simp_all [Memory.readCell]
    · by_cases hj : c.1 = j
      · simp_all [Memory.readCell]
      · simp_all [Memory.readCell]

theorem readCell_addCell (m : Memory) (k j : Nat) (b : Byte)
    (hk : ∀ c ∈ m, c.1 ≠ k) :
    Memory.readCell (Memory.addCell k b m) j = if j = k then b else Memory.readCell m j := by
  induction m with
  | nil => by_cases hj : j = k <;> simp_all [Memory.addCell, Memory.readCell, eq_comm]
  | cons c m ih =>
    have hc : c.1 ≠ k := hk c (by simp)
    have hm := ih fun d hd => hk d (by simp [hd])
    unfold Memory.addCell
    split
    · by_cases hj : j = k
      · simp [Memory.readCell, hj]
      · simp [Memory.readCell, hj, Ne.symm hj]
    · by_cases hj : j = k
      · subst hj
        simp [Memory.readCell, hc, hm]
      · simp [Memory.readCell, hj, hm]

theorem dropCell_avoids (m : Memory) (k : Nat) : ∀ c ∈ Memory.dropCell m k, c.1 ≠ k := by
  simp [Memory.dropCell]

/-- The one law of a write: the cell holds the byte, every other cell is as before. -/
theorem readCell_writeCell (m : Memory) (k j : Nat) (b : Byte) :
    Memory.readCell (Memory.writeCell m k b) j = if j = k then b else Memory.readCell m j := by
  unfold Memory.writeCell
  split
  · next h => rw [readCell_dropCell, h]
  · rw [readCell_addCell _ _ _ _ (dropCell_avoids m k),
      readCell_dropCell]
    split <;> rfl

/-- The law of a run of writes (Load): the cells of the image hold it, every other is as before. -/
theorem readCell_writeCells (bs : List Byte) (m : Memory) (k j : Nat) :
    Memory.readCell (Memory.writeCells m k bs) j =
      if k ≤ j ∧ j < k + bs.length then bs.getD (j - k) 0 else Memory.readCell m j := by
  induction bs generalizing m k with
  | nil =>
    have : ¬ (k ≤ j ∧ j < k + ([] : List Byte).length) := by simp
    rw [if_neg this, Memory.writeCells]
  | cons b bs ih =>
    rw [Memory.writeCells, ih, readCell_writeCell]
    by_cases hj : j = k
    · subst hj; simp
    · by_cases h : k ≤ j ∧ j < k + (b :: bs).length
      · have h' : k + 1 ≤ j ∧ j < k + 1 + bs.length := by simp at h; omega
        obtain ⟨d, hd⟩ : ∃ d, j = k + 1 + d := ⟨j - (k + 1), by omega⟩
        subst hd
        have : k + 1 + d - k = d + 1 := by omega
        simp only [if_pos h, if_pos h']
        rw [this]
        simp
      · have h' : ¬ (k + 1 ≤ j ∧ j < k + 1 + bs.length) := by simp at h; omega
        rw [if_neg h', if_neg h, if_neg hj]

/-- A filled memory reads as its byte in every cell (R25). -/
theorem readCell_fill (b : Byte) (j : Nat) (hj : j < 256) :
    Memory.readCell (Memory.fill b) j = b := by
  unfold Memory.fill
  split
  · next h => simp [Memory.readCell, h]
  · have : ∀ l : List Nat, j ∈ l → Memory.readCell (l.map (fun k => (k, b))) j = b := by
      intro l
      induction l with
      | nil => simp
      | cons c l ih =>
        intro h
        by_cases hc : c = j
        · simp [Memory.readCell, hc]
        · simp [Memory.readCell, hc, ih (by simpa [Ne.symm hc] using h)]
    exact this _ (by simpa using hj)

/-! ### The canonical form -/

theorem rising_iff (m : Memory) : Memory.rising m = true ↔ m.Pairwise (fun c d => c.1 < d.1) := by
  induction m with
  | nil => simp [Memory.rising]
  | cons c m ih => simp [Memory.rising, ih]

theorem wf_iff (m : Memory) :
    Memory.wf m = true ↔
      m.Pairwise (fun c d => c.1 < d.1) ∧ ∀ c ∈ m, c.1 < 256 ∧ c.2 ≠ Memory.unlisted := by
  simp [Memory.wf, rising_iff]

theorem mem_addCell (m : Memory) (k : Nat) (b : Byte) (c : Host.Cell) :
    c ∈ Memory.addCell k b m ↔ c = (k, b) ∨ c ∈ m := by
  induction m with
  | nil => simp [Memory.addCell]
  | cons d m ih =>
    unfold Memory.addCell
    split
    · simp
    · simp [ih]; tauto

theorem addCell_pairwise (m : Memory) (k : Nat) (b : Byte)
    (h : m.Pairwise (fun c d => c.1 < d.1)) (hk : ∀ c ∈ m, c.1 ≠ k) :
    (Memory.addCell k b m).Pairwise (fun c d => c.1 < d.1) := by
  induction m with
  | nil => simp [Memory.addCell]
  | cons d m ih =>
    obtain ⟨hd, hm⟩ := List.pairwise_cons.1 h
    unfold Memory.addCell
    split
    · next hlt =>
      refine List.pairwise_cons.2 ⟨?_, h⟩
      intro c hc
      rcases List.mem_cons.1 hc with rfl | hc
      · exact hlt
      · exact Nat.lt_trans hlt (hd c hc)
    · next hge =>
      refine List.pairwise_cons.2 ⟨?_, ih hm fun c hc => hk c (by simp [hc])⟩
      intro c hc
      rcases (mem_addCell _ _ _ _).1 hc with rfl | hc
      · have := hk d (by simp)
        simp at hge ⊢; omega
      · exact hd c hc

theorem writeCell_wf (m : Memory) (k : Nat) (b : Byte) (hk : k < 256) (h : Memory.wf m = true) :
    Memory.wf (Memory.writeCell m k b) = true := by
  rw [wf_iff] at h ⊢
  have hdrop : (Memory.dropCell m k).Pairwise (fun c d => c.1 < d.1) := h.1.filter _
  have hin : ∀ c ∈ Memory.dropCell m k, c.1 < 256 ∧ c.2 ≠ Memory.unlisted := fun c hc =>
    h.2 c (List.mem_filter.1 hc).1
  unfold Memory.writeCell
  split
  · exact ⟨hdrop, hin⟩
  · next hb =>
    refine ⟨addCell_pairwise _ _ _ hdrop (dropCell_avoids m k), fun c hc => ?_⟩
    rcases (mem_addCell _ _ _ _).1 hc with rfl | hc
    · exact ⟨hk, hb⟩
    · exact hin c hc

theorem writeCells_wf (bs : List Byte) (m : Memory) (k : Nat) (hk : k + bs.length ≤ 256)
    (h : Memory.wf m = true) : Memory.wf (Memory.writeCells m k bs) = true := by
  induction bs generalizing m k with
  | nil => exact h
  | cons b bs ih =>
    simp at hk
    exact ih _ _ (by omega) (writeCell_wf m k b (by omega) h)

theorem fill_wf (b : Byte) : Memory.wf (Memory.fill b) = true := by
  unfold Memory.fill
  split
  · rfl
  · next hb =>
    rw [wf_iff]
    refine ⟨List.pairwise_map.2 ?_, ?_⟩
    · exact List.pairwise_lt_range.imp fun h => h
    · intro c hc
      obtain ⟨k, hk, rfl⟩ := List.mem_map.1 hc
      exact ⟨by simpa using hk, hb⟩

/-- The memory after Reset with the default parameters lists nothing and is in canonical form. -/
theorem reset_mem_wf : Memory.wf State.reset.mem = true :=
  fill_wf defaultParams.resetMem

/-! ### The same, through the state's reads and writes -/

theorem memRead_memWrite (s : State) (a x v : Byte) :
    (s.memWrite a v).memRead x = if x = a then v else s.memRead x := by
  unfold State.memRead State.memWrite
  simp [readCell_writeCell, BitVec.toNat_inj]

theorem memWrite_wf (s : State) (a v : Byte) (h : Memory.wf s.mem = true) :
    Memory.wf (s.memWrite a v).mem = true :=
  writeCell_wf _ _ _ a.isLt h

end Sys2Proof.Machine
end

