-- ==== Sys2Proof/Laws/State.lean ====
section
/-! SUPPORT. What each state update does to each field, and to what is read through the named reads. -/

namespace Sys2Proof.Machine

/-! ### `State.writeReg` -/

@[simp] theorem writeReg_regs (s : State) (r : RegIx) (v : Byte) : (s.writeReg r v).regs = s.regs.set r.toNat v := rfl
@[simp] theorem writeReg_pc (s : State) (r : RegIx) (v : Byte) : (s.writeReg r v).pc = s.pc := rfl
@[simp] theorem writeReg_mem (s : State) (r : RegIx) (v : Byte) : (s.writeReg r v).mem = s.mem := rfl
@[simp] theorem writeReg_lastResult (s : State) (r : RegIx) (v : Byte) : (s.writeReg r v).lastResult = s.lastResult := rfl
@[simp] theorem writeReg_status (s : State) (r : RegIx) (v : Byte) : (s.writeReg r v).status = s.status := rfl
@[simp] theorem writeReg_fault (s : State) (r : RegIx) (v : Byte) : (s.writeReg r v).fault = s.fault := rfl
@[simp] theorem writeReg_jumped (s : State) (r : RegIx) (v : Byte) : (s.writeReg r v).jumped = s.jumped := rfl
@[simp] theorem writeReg_curMem (s : State) (r : RegIx) (v : Byte) : (s.writeReg r v).curMem = s.curMem := rfl
@[simp] theorem writeReg_params (s : State) (r : RegIx) (v : Byte) : (s.writeReg r v).params = s.params := rfl
@[simp] theorem writeReg_memRead (s : State) (r : RegIx) (v : Byte) (x : Byte) : (s.writeReg r v).memRead x = s.memRead x := rfl

/-! ### `State.memWrite` -/

@[simp] theorem memWrite_regs (s : State) (a v : Byte) : (s.memWrite a v).regs = s.regs := rfl
@[simp] theorem memWrite_pc (s : State) (a v : Byte) : (s.memWrite a v).pc = s.pc := rfl
@[simp] theorem memWrite_mem (s : State) (a v : Byte) : (s.memWrite a v).mem = Memory.writeCell s.mem a.toNat v := rfl
@[simp] theorem memWrite_lastResult (s : State) (a v : Byte) : (s.memWrite a v).lastResult = s.lastResult := rfl
@[simp] theorem memWrite_status (s : State) (a v : Byte) : (s.memWrite a v).status = s.status := rfl
@[simp] theorem memWrite_fault (s : State) (a v : Byte) : (s.memWrite a v).fault = s.fault := rfl
@[simp] theorem memWrite_jumped (s : State) (a v : Byte) : (s.memWrite a v).jumped = s.jumped := rfl
@[simp] theorem memWrite_curMem (s : State) (a v : Byte) : (s.memWrite a v).curMem = s.curMem := rfl
@[simp] theorem memWrite_params (s : State) (a v : Byte) : (s.memWrite a v).params = s.params := rfl
@[simp] theorem memWrite_readReg (s : State) (a v : Byte) (q : RegIx) : (s.memWrite a v).readReg q = s.readReg q := rfl

/-! ### `State.setPc` -/

@[simp] theorem setPc_regs (s : State) (t : Byte) : (s.setPc t).regs = s.regs := rfl
@[simp] theorem setPc_pc (s : State) (t : Byte) : (s.setPc t).pc = t := rfl
@[simp] theorem setPc_mem (s : State) (t : Byte) : (s.setPc t).mem = s.mem := rfl
@[simp] theorem setPc_lastResult (s : State) (t : Byte) : (s.setPc t).lastResult = s.lastResult := rfl
@[simp] theorem setPc_status (s : State) (t : Byte) : (s.setPc t).status = s.status := rfl
@[simp] theorem setPc_fault (s : State) (t : Byte) : (s.setPc t).fault = s.fault := rfl
@[simp] theorem setPc_jumped (s : State) (t : Byte) : (s.setPc t).jumped = s.jumped := rfl
@[simp] theorem setPc_curMem (s : State) (t : Byte) : (s.setPc t).curMem = s.curMem := rfl
@[simp] theorem setPc_params (s : State) (t : Byte) : (s.setPc t).params = s.params := rfl
@[simp] theorem setPc_readReg (s : State) (t : Byte) (q : RegIx) : (s.setPc t).readReg q = s.readReg q := rfl
@[simp] theorem setPc_memRead (s : State) (t : Byte) (x : Byte) : (s.setPc t).memRead x = s.memRead x := rfl

/-! ### `State.halt` -/

@[simp] theorem halt_regs (s : State) : (s.halt).regs = s.regs := rfl
@[simp] theorem halt_pc (s : State) : (s.halt).pc = s.pc := rfl
@[simp] theorem halt_mem (s : State) : (s.halt).mem = s.mem := rfl
@[simp] theorem halt_lastResult (s : State) : (s.halt).lastResult = s.lastResult := rfl
@[simp] theorem halt_status (s : State) : (s.halt).status = .halted := rfl
@[simp] theorem halt_fault (s : State) : (s.halt).fault = s.fault := rfl
@[simp] theorem halt_jumped (s : State) : (s.halt).jumped = s.jumped := rfl
@[simp] theorem halt_curMem (s : State) : (s.halt).curMem = s.curMem := rfl
@[simp] theorem halt_params (s : State) : (s.halt).params = s.params := rfl
@[simp] theorem halt_readReg (s : State) (q : RegIx) : (s.halt).readReg q = s.readReg q := rfl
@[simp] theorem halt_memRead (s : State) (x : Byte) : (s.halt).memRead x = s.memRead x := rfl

/-! ### `State.raise` -/

@[simp] theorem raise_regs (s : State) (f : Fault) : (s.raise f).regs = s.regs := rfl
@[simp] theorem raise_pc (s : State) (f : Fault) : (s.raise f).pc = s.pc := rfl
@[simp] theorem raise_mem (s : State) (f : Fault) : (s.raise f).mem = s.mem := rfl
@[simp] theorem raise_lastResult (s : State) (f : Fault) : (s.raise f).lastResult = s.lastResult := rfl
@[simp] theorem raise_status (s : State) (f : Fault) : (s.raise f).status = .faulted := rfl
@[simp] theorem raise_fault (s : State) (f : Fault) : (s.raise f).fault = some f := rfl
@[simp] theorem raise_jumped (s : State) (f : Fault) : (s.raise f).jumped = s.jumped := rfl
@[simp] theorem raise_curMem (s : State) (f : Fault) : (s.raise f).curMem = s.curMem := rfl
@[simp] theorem raise_params (s : State) (f : Fault) : (s.raise f).params = s.params := rfl
@[simp] theorem raise_readReg (s : State) (f : Fault) (q : RegIx) : (s.raise f).readReg q = s.readReg q := rfl
@[simp] theorem raise_memRead (s : State) (f : Fault) (x : Byte) : (s.raise f).memRead x = s.memRead x := rfl

/-! ### `State.beginStep` -/

@[simp] theorem beginStep_regs (s : State) : (s.beginStep).regs = s.regs := rfl
@[simp] theorem beginStep_pc (s : State) : (s.beginStep).pc = s.pc := rfl
@[simp] theorem beginStep_mem (s : State) : (s.beginStep).mem = s.mem := rfl
@[simp] theorem beginStep_lastResult (s : State) : (s.beginStep).lastResult = s.lastResult := rfl
@[simp] theorem beginStep_status (s : State) : (s.beginStep).status = s.status := rfl
@[simp] theorem beginStep_fault (s : State) : (s.beginStep).fault = s.fault := rfl
@[simp] theorem beginStep_jumped (s : State) : (s.beginStep).jumped = false := rfl
@[simp] theorem beginStep_curMem (s : State) : (s.beginStep).curMem = none := rfl
@[simp] theorem beginStep_params (s : State) : (s.beginStep).params = s.params := rfl
@[simp] theorem beginStep_readReg (s : State) (q : RegIx) : (s.beginStep).readReg q = s.readReg q := rfl
@[simp] theorem beginStep_memRead (s : State) (x : Byte) : (s.beginStep).memRead x = s.memRead x := rfl

/-! ### `State.recordResult` -/

@[simp] theorem recordResult_regs (s : State) (v : Byte) : (s.recordResult v).regs = s.regs := rfl
@[simp] theorem recordResult_pc (s : State) (v : Byte) : (s.recordResult v).pc = s.pc := rfl
@[simp] theorem recordResult_mem (s : State) (v : Byte) : (s.recordResult v).mem = s.mem := rfl
@[simp] theorem recordResult_lastResult (s : State) (v : Byte) : (s.recordResult v).lastResult = v := rfl
@[simp] theorem recordResult_status (s : State) (v : Byte) : (s.recordResult v).status = s.status := rfl
@[simp] theorem recordResult_fault (s : State) (v : Byte) : (s.recordResult v).fault = s.fault := rfl
@[simp] theorem recordResult_jumped (s : State) (v : Byte) : (s.recordResult v).jumped = s.jumped := rfl
@[simp] theorem recordResult_curMem (s : State) (v : Byte) : (s.recordResult v).curMem = s.curMem := rfl
@[simp] theorem recordResult_params (s : State) (v : Byte) : (s.recordResult v).params = s.params := rfl
@[simp] theorem recordResult_readReg (s : State) (v : Byte) (q : RegIx) : (s.recordResult v).readReg q = s.readReg q := rfl
@[simp] theorem recordResult_memRead (s : State) (v : Byte) (x : Byte) : (s.recordResult v).memRead x = s.memRead x := rfl

/-! ### `State.noteAddress` -/

@[simp] theorem noteAddress_regs (s : State) (a : Byte) : (s.noteAddress a).regs = s.regs := rfl
@[simp] theorem noteAddress_pc (s : State) (a : Byte) : (s.noteAddress a).pc = s.pc := rfl
@[simp] theorem noteAddress_mem (s : State) (a : Byte) : (s.noteAddress a).mem = s.mem := rfl
@[simp] theorem noteAddress_lastResult (s : State) (a : Byte) : (s.noteAddress a).lastResult = s.lastResult := rfl
@[simp] theorem noteAddress_status (s : State) (a : Byte) : (s.noteAddress a).status = s.status := rfl
@[simp] theorem noteAddress_fault (s : State) (a : Byte) : (s.noteAddress a).fault = s.fault := rfl
@[simp] theorem noteAddress_jumped (s : State) (a : Byte) : (s.noteAddress a).jumped = s.jumped := rfl
@[simp] theorem noteAddress_curMem (s : State) (a : Byte) : (s.noteAddress a).curMem = some a := rfl
@[simp] theorem noteAddress_params (s : State) (a : Byte) : (s.noteAddress a).params = s.params := rfl
@[simp] theorem noteAddress_readReg (s : State) (a : Byte) (q : RegIx) : (s.noteAddress a).readReg q = s.readReg q := rfl
@[simp] theorem noteAddress_memRead (s : State) (a : Byte) (x : Byte) : (s.noteAddress a).memRead x = s.memRead x := rfl

/-! ### `State.markJumped` -/

@[simp] theorem markJumped_regs (s : State) : (s.markJumped).regs = s.regs := rfl
@[simp] theorem markJumped_pc (s : State) : (s.markJumped).pc = s.pc := rfl
@[simp] theorem markJumped_mem (s : State) : (s.markJumped).mem = s.mem := rfl
@[simp] theorem markJumped_lastResult (s : State) : (s.markJumped).lastResult = s.lastResult := rfl
@[simp] theorem markJumped_status (s : State) : (s.markJumped).status = s.status := rfl
@[simp] theorem markJumped_fault (s : State) : (s.markJumped).fault = s.fault := rfl
@[simp] theorem markJumped_jumped (s : State) : (s.markJumped).jumped = true := rfl
@[simp] theorem markJumped_curMem (s : State) : (s.markJumped).curMem = s.curMem := rfl
@[simp] theorem markJumped_params (s : State) : (s.markJumped).params = s.params := rfl
@[simp] theorem markJumped_readReg (s : State) (q : RegIx) : (s.markJumped).readReg q = s.readReg q := rfl
@[simp] theorem markJumped_memRead (s : State) (x : Byte) : (s.markJumped).memRead x = s.memRead x := rfl

/-! ### Registers read back -/

theorem readReg_writeReg (s : State) (r q : RegIx) (v : Byte) :
    (s.writeReg r v).readReg q = if q = r then v else s.readReg q := by
  unfold State.readReg State.writeReg
  rw [Vector.getElem_set]
  by_cases h : q = r
  · simp [h]
  · have : r.toNat ≠ q.toNat := fun e => h (BitVec.eq_of_toNat_eq e.symm)
    simp [h, this]

end Sys2Proof.Machine
end

