-- ==== Sys2Proof/Laws/Ops.lean ====
section
/-! SUPPORT. What each shared operation can do, said once: the end of a Step, the ALU's write-back, the jump,
and `exec` instruction by instruction. -/

namespace Sys2Proof.Machine

/-! ### The end of a Step (`State.complete`, R75, R81, R82) -/

theorem canAdvance_iff (s : State) (pc0 : Byte) :
    s.canAdvance pc0 = true ↔ s.params.pcTop = .wrap ∨ pc0.toNat < 254 := by
  simp [State.canAdvance]

theorem complete_advances {s : State} {pc0 : Byte} (hr : s.status = .running)
    (hj : s.jumped = false) (ha : pc0.toNat < 254 ∨ s.params.pcTop = .wrap) :
    s.complete pc0 = s.setPc (pc0 + 2) := by
  have : s.canAdvance pc0 = true := (canAdvance_iff s pc0).2 ha.symm
  simp [State.complete, hr, hj, this]

theorem complete_faults {s : State} {pc0 : Byte} (hr : s.status = .running)
    (hj : s.jumped = false) (hp : 254 ≤ pc0.toNat) (hf : s.params.pcTop = .fault) :
    s.complete pc0 = s.raise (.pcOutOfRange pc0) := by
  have : ¬ s.canAdvance pc0 = true := by rw [canAdvance_iff]; simp [hf]; omega
  simp [State.complete, hr, hj, this]

theorem complete_jumped {s : State} {pc0 : Byte} (hj : s.jumped = true) : s.complete pc0 = s := by
  simp [State.complete, hj]

theorem complete_stopped {s : State} {pc0 : Byte} (hr : s.status ≠ .running) : s.complete pc0 = s := by
  simp [State.complete, hr]

/-- Everything the end of a Step can do. -/
theorem complete_cases (s : State) (pc0 : Byte) :
    (s.complete pc0 = s ∧ (s.status ≠ .running ∨ s.jumped = true)) ∨
    (s.complete pc0 = s.setPc (pc0 + 2) ∧ s.status = .running ∧ s.jumped = false) ∨
    (s.complete pc0 = s.raise (.pcOutOfRange pc0) ∧ s.status = .running ∧ s.jumped = false ∧
      254 ≤ pc0.toNat ∧ s.params.pcTop = .fault) := by
  by_cases hr : s.status = .running
  · cases hj : s.jumped
    · by_cases ha : s.canAdvance pc0 = true
      · exact .inr (.inl ⟨by simp [State.complete, hr, hj, ha], hr, rfl⟩)
      · have h := mt (canAdvance_iff s pc0).2 ha
        refine .inr (.inr ⟨by simp [State.complete, hr, hj, ha], hr, rfl, by omega, ?_⟩)
        cases hp : s.params.pcTop <;> simp_all
    · exact .inl ⟨complete_jumped hj, .inr rfl⟩
  · exact .inl ⟨complete_stopped hr, .inl hr⟩

@[simp] theorem complete_regs (s : State) (pc0 : Byte) : (s.complete pc0).regs = s.regs := by
  rcases complete_cases s pc0 with ⟨h, _⟩ | ⟨h, _⟩ | ⟨h, _⟩ <;> rw [h] <;> rfl

@[simp] theorem complete_readReg (s : State) (pc0 : Byte) (q : RegIx) :
    (s.complete pc0).readReg q = s.readReg q := by simp [State.readReg]

@[simp] theorem complete_mem (s : State) (pc0 : Byte) : (s.complete pc0).mem = s.mem := by
  rcases complete_cases s pc0 with ⟨h, _⟩ | ⟨h, _⟩ | ⟨h, _⟩ <;> rw [h] <;> rfl

@[simp] theorem complete_memRead (s : State) (pc0 x : Byte) :
    (s.complete pc0).memRead x = s.memRead x := by simp [State.memRead]

@[simp] theorem complete_lastResult (s : State) (pc0 : Byte) :
    (s.complete pc0).lastResult = s.lastResult := by
  rcases complete_cases s pc0 with ⟨h, _⟩ | ⟨h, _⟩ | ⟨h, _⟩ <;> rw [h] <;> rfl

@[simp] theorem complete_jumpedFlag (s : State) (pc0 : Byte) : (s.complete pc0).jumped = s.jumped := by
  rcases complete_cases s pc0 with ⟨h, _⟩ | ⟨h, _⟩ | ⟨h, _⟩ <;> rw [h] <;> rfl

@[simp] theorem complete_curMem (s : State) (pc0 : Byte) : (s.complete pc0).curMem = s.curMem := by
  rcases complete_cases s pc0 with ⟨h, _⟩ | ⟨h, _⟩ | ⟨h, _⟩ <;> rw [h] <;> rfl

@[simp] theorem complete_params (s : State) (pc0 : Byte) : (s.complete pc0).params = s.params := by
  rcases complete_cases s pc0 with ⟨h, _⟩ | ⟨h, _⟩ | ⟨h, _⟩ <;> rw [h] <;> rfl

theorem complete_pc (s : State) (pc0 : Byte) :
    (s.complete pc0).pc = s.pc ∨ (s.complete pc0).pc = pc0 + 2 := by
  rcases complete_cases s pc0 with ⟨h, _⟩ | ⟨h, _⟩ | ⟨h, _⟩ <;> rw [h] <;> simp

/-! ### JUMPZ's own effect (`State.jumpIfZero`, R96) -/

theorem jumpIfZero_taken {s : State} (h : s.lastResult = 0) (a : Byte) :
    s.jumpIfZero a = (s.setPc a).markJumped := by
  simp [State.jumpIfZero, State.resultIsZero, jumpTarget, h]

theorem jumpIfZero_notTaken {s : State} (h : s.lastResult ≠ 0) (a : Byte) : s.jumpIfZero a = s := by
  have : s.resultIsZero = false := by simpa [State.resultIsZero] using h
  simp [State.jumpIfZero, this]

theorem jumpIfZero_cases (s : State) (a : Byte) :
    (s.lastResult = 0 ∧ s.jumpIfZero a = (s.setPc a).markJumped) ∨
    (s.lastResult ≠ 0 ∧ s.jumpIfZero a = s) := by
  by_cases h : s.lastResult = 0
  · exact .inl ⟨h, jumpIfZero_taken h a⟩
  · exact .inr ⟨h, jumpIfZero_notTaken h a⟩

@[simp] theorem jumpIfZero_regs (s : State) (a : Byte) : (s.jumpIfZero a).regs = s.regs := by
  rcases jumpIfZero_cases s a with ⟨_, h⟩ | ⟨_, h⟩ <;> simp [h]

@[simp] theorem jumpIfZero_mem (s : State) (a : Byte) : (s.jumpIfZero a).mem = s.mem := by
  rcases jumpIfZero_cases s a with ⟨_, h⟩ | ⟨_, h⟩ <;> simp [h]

@[simp] theorem jumpIfZero_lastResult (s : State) (a : Byte) : (s.jumpIfZero a).lastResult = s.lastResult := by
  rcases jumpIfZero_cases s a with ⟨_, h⟩ | ⟨_, h⟩ <;> simp [h]

@[simp] theorem jumpIfZero_status (s : State) (a : Byte) : (s.jumpIfZero a).status = s.status := by
  rcases jumpIfZero_cases s a with ⟨_, h⟩ | ⟨_, h⟩ <;> simp [h]

@[simp] theorem jumpIfZero_fault (s : State) (a : Byte) : (s.jumpIfZero a).fault = s.fault := by
  rcases jumpIfZero_cases s a with ⟨_, h⟩ | ⟨_, h⟩ <;> simp [h]

@[simp] theorem jumpIfZero_curMem (s : State) (a : Byte) : (s.jumpIfZero a).curMem = s.curMem := by
  rcases jumpIfZero_cases s a with ⟨_, h⟩ | ⟨_, h⟩ <;> simp [h]

@[simp] theorem jumpIfZero_params (s : State) (a : Byte) : (s.jumpIfZero a).params = s.params := by
  rcases jumpIfZero_cases s a with ⟨_, h⟩ | ⟨_, h⟩ <;> simp [h]

@[simp] theorem jumpIfZero_readReg (s : State) (a : Byte) (q : RegIx) :
    (s.jumpIfZero a).readReg q = s.readReg q := by simp [State.readReg]

@[simp] theorem jumpIfZero_memRead (s : State) (a x : Byte) :
    (s.jumpIfZero a).memRead x = s.memRead x := by simp [State.memRead]

/-! ### Addresses -/

theorem add_two_toNat (p : Byte) : (p + 2).toNat = (p.toNat + 2) % 256 := by
  simp [BitVec.toNat_add]

theorem operandAddress_eq (p : Byte) : operandAddress p = BitVec.ofNat 8 ((p.toNat + 1) % 256) := by
  apply BitVec.eq_of_toNat_eq
  simp [operandAddress, BitVec.toNat_add]

theorem operandByte_eq (s : State) : s.operandByte = s.memRead (operandAddress s.pc) := by
  rw [State.operandByte, operandAddress_eq]

/-! ### The instructions: the state `exec` answers (R86 to R97) -/

/-- The state an instruction leaves, before the end of its Step: its own effect alone. -/
def effect : Instr → State → State
  | .loadm ra a, s => ((s.writeReg ra (s.memRead a)).noteAddress a).recordResult (s.memRead a)
  | .store ra a, s => ((s.memWrite a (s.readReg ra)).noteAddress a).recordResult (s.readReg ra)
  | .jumpz a, s => s.jumpIfZero a
  | .add ra rb rc, s =>
    (s.writeReg ra (s.readReg rb + s.readReg rc)).recordResult (s.readReg rb + s.readReg rc)
  | .sub ra rb rc, s =>
    (s.writeReg ra (s.readReg rb - s.readReg rc)).recordResult (s.readReg rb - s.readReg rc)
  | .dec ra, s => (s.writeReg ra (s.readReg ra - 1)).recordResult (s.readReg ra - 1)
  | .inc ra, s => (s.writeReg ra (s.readReg ra + 1)).recordResult (s.readReg ra + 1)
  | .loadc ra v, s => (s.writeReg ra v).recordResult v
  | .copy ra rb, s => s.writeReg ra (s.readReg rb)
  | .stop, s => s.halt

/-- Every instruction answers a next state: its effect, then the end of the Step. -/
theorem exec_eq (i : Instr) (s : State) : exec i s = .next ((effect i s).complete s.pc) := by
  cases i <;> rfl

theorem effect_params (i : Instr) (s : State) : (effect i s).params = s.params := by
  cases i <;> simp [effect]

end Sys2Proof.Machine
end

