-- ==== Sys2Proof/Laws/WellFormed.lean ====
section
/-! SUPPORT. The operand types admit exactly the in-range values (R57, R63). -/

namespace Sys2Proof

theorem regIx_wf (r : RegIx) : RegIx.wf r = true := decide_eq_true r.isLt

theorem byte_wf (b : Byte) : Byte.wf b = true := decide_eq_true b.isLt

/-- Every instruction is well-formed. -/
theorem instr_wf (i : Instr) : Instr.wf i = true := by
  cases i <;> simp [Instr.wf, regIx_wf, byte_wf]

end Sys2Proof
end

