-- ==== Sys2Proof/Laws/PerInstr.lean ====
section
/-! SUPPORT. Per instruction: it is well-formed, and its encoding is a canonical word of its own row of the
opcode table. -/

namespace Sys2Proof.Laws.TableRow

/-- The instruction's operands are in range, and the word the encoder writes matches its row's mask and its
row's canonical mask (INDEX.md on `match` and `canonical_match`). -/
def Statement (i : Instr) : Prop :=
  Instr.wf i = true ∧
    wordOf (encode i).1 (encode i).2 &&& i.row.mask = i.row.matchBits ∧
    wordOf (encode i).1 (encode i).2 &&& i.row.canonMask = i.row.canonMatch

/-- A word is masked byte by byte. -/
theorem word_and (x y m n : Byte) : wordOf x y &&& wordOf m n = wordOf (x &&& m) (y &&& n) :=
  BitVec.and_append

/-- The opcode byte under the opcode mask. -/
theorem opcode_and : ∀ (op : Nibble) (r : RegIx), (op ++ r : Byte) &&& 0xF0 = op ++ 0#4 := by decide

/-- A word whose opcode byte is `op`, `r`, under the opcode mask and an operand mask `n`. -/
theorem opcode_word (op : Nibble) (r : RegIx) (b n : Byte) :
    wordOf (op ++ r) b &&& wordOf 0xF0 n = wordOf (op ++ 0#4) (b &&& n) :=
  (word_and _ _ _ _).trans (congrArg (fun x => wordOf x (b &&& n)) (opcode_and op r))

/-- The same where the operand byte is all operand. -/
theorem opcode_word_free (op : Nibble) (r : RegIx) (b : Byte) :
    wordOf (op ++ r) b &&& wordOf 0xF0 0x00 = wordOf (op ++ 0#4) 0x00 :=
  (opcode_word op r b 0x00).trans (congrArg (wordOf _) BitVec.and_zero)

/-- COPY's operand byte has its unused low nibble clear. -/
theorem copy_and : ∀ rb : RegIx, (rb ++ 0#4 : Byte) &&& 0x0F = 0x00 := by decide

theorem loadm (ra : RegIx) (addr8 : Byte) : Statement (.loadm ra addr8) :=
  ⟨instr_wf _, opcode_word_free 0x0 ra addr8, opcode_word_free 0x0 ra addr8⟩

theorem store (ra : RegIx) (addr8 : Byte) : Statement (.store ra addr8) :=
  ⟨instr_wf _, opcode_word_free 0x1 ra addr8, opcode_word_free 0x1 ra addr8⟩

theorem jumpz (addr8 : Byte) : Statement (.jumpz addr8) :=
  ⟨instr_wf _, opcode_word_free 0x2 0x0 addr8,
    (word_and 0x20 addr8 0xFF 0x00).trans (congrArg (wordOf _) BitVec.and_zero)⟩

theorem add (ra rb rc : RegIx) : Statement (.add ra rb rc) :=
  ⟨instr_wf _, opcode_word_free 0x3 ra _, opcode_word_free 0x3 ra _⟩

theorem sub (ra rb rc : RegIx) : Statement (.sub ra rb rc) :=
  ⟨instr_wf _, opcode_word_free 0x4 ra _, opcode_word_free 0x4 ra _⟩

theorem dec (ra : RegIx) : Statement (.dec ra) :=
  ⟨instr_wf _, opcode_word_free 0x5 ra _, opcode_word 0x5 ra 0x00 0xFF⟩

theorem inc (ra : RegIx) : Statement (.inc ra) :=
  ⟨instr_wf _, opcode_word_free 0x6 ra _, opcode_word 0x6 ra 0x00 0xFF⟩

theorem loadc (ra : RegIx) (imm8 : Byte) : Statement (.loadc ra imm8) :=
  ⟨instr_wf _, opcode_word_free 0x7 ra imm8, opcode_word_free 0x7 ra imm8⟩

theorem copy (ra rb : RegIx) : Statement (.copy ra rb) :=
  ⟨instr_wf _, opcode_word_free 0x8 ra _,
    (opcode_word 0x8 ra (rb ++ 0x0#4) 0x0F).trans (congrArg (wordOf _) (copy_and rb))⟩

theorem stop : Statement .stop :=
  ⟨instr_wf _, opcode_word_free 0xF 0x0 0x00, (word_and 0xF0 0x00 0xFF 0xFF).trans rfl⟩

end Sys2Proof.Laws.TableRow
end

