-- ==== Sys2Proof/Laws/Step.lean ====
section
/-! SUPPORT. What a fetch and a Step can do, said once (R75, R135). -/

namespace Sys2Proof.Machine

theorem beginStep_executing {s : State} (h : s.status = .running) : s.beginStep.Executing :=
  ⟨h, rfl, rfl⟩

theorem fetchPastEnd_iff (s : State) :
    s.fetchPastEnd s.pc = true ↔ s.pc = 255 ∧ s.params.pcTop = .fault := by
  simp [State.fetchPastEnd]

theorem not_fetchPastEnd {s : State} (h : s.Fetches) : s.fetchPastEnd s.pc = false := by
  rw [← Bool.not_eq_true, fetchPastEnd_iff]
  rintro ⟨hp, hf⟩
  rcases h with h | h
  · rw [hp] at h
    exact absurd h (by decide)
  · rw [hf] at h
    exact absurd h (by decide)

/-- Everything a fetch can answer, in the order of R135. -/
theorem fetchDecode_cases (s : State) :
    (s.pc = 255 ∧ s.params.pcTop = .fault ∧ s.fetchDecode = .error (.pcOutOfRange s.pc)) ∨
    (∃ i, decode (s.memRead s.pc) s.operandByte = .instr i ∧ s.fetchDecode = .ok i) ∨
    (∃ op, decode (s.memRead s.pc) s.operandByte = .illegal op ∧
      s.fetchDecode = .error (.illegalOpcode s.pc op)) := by
  rw [operandByte_eq]
  by_cases h : s.fetchPastEnd s.pc = true
  · obtain ⟨hp, hf⟩ := (fetchPastEnd_iff s).1 h
    exact .inl ⟨hp, hf, by simp [State.fetchDecode, h]⟩
  · rw [Bool.not_eq_true] at h
    cases hd : decode (s.memRead s.pc) (s.memRead (operandAddress s.pc)) with
    | instr i => exact .inr (.inl ⟨i, rfl, by simp [State.fetchDecode, h, hd]⟩)
    | illegal op => exact .inr (.inr ⟨op, rfl, by simp [State.fetchDecode, h, hd]⟩)

theorem fetchDecode_top {s : State} (hp : s.pc = 255) (hf : s.params.pcTop = .fault) :
    s.fetchDecode = .error (.pcOutOfRange s.pc) := by
  have : s.fetchPastEnd s.pc = true := (fetchPastEnd_iff s).2 ⟨hp, hf⟩
  rw [State.fetchDecode, if_pos this]

theorem fetchDecode_instr {s : State} {i : Instr} (hf : s.Fetches)
    (hd : decode (s.memRead s.pc) s.operandByte = .instr i) : s.fetchDecode = .ok i := by
  rw [operandByte_eq] at hd
  simp [State.fetchDecode, not_fetchPastEnd hf, hd]

theorem fetchDecode_illegal {s : State} {op : Nibble} (hf : s.Fetches)
    (hd : decode (s.memRead s.pc) s.operandByte = .illegal op) :
    s.fetchDecode = .error (.illegalOpcode s.pc op) := by
  rw [operandByte_eq] at hd
  simp [State.fetchDecode, not_fetchPastEnd hf, hd]

/-! ### Steps and runs -/

theorem step_of_ok {s : State} {i : Instr} (h : s.status = .running)
    (hf : s.beginStep.fetchDecode = .ok i) : step s = exec i s.beginStep := by
  simp [step, State.canStep, h, hf]

theorem step_of_error {s : State} {f : Fault} (h : s.status = .running)
    (hf : s.beginStep.fetchDecode = .error f) : step s = .next (s.beginStep.raise f) := by
  simp [step, State.canStep, h, hf]

theorem step_stopped {s : State} (h : s.status ≠ .running) : step s = .next s := by
  simp [step, State.canStep, h]

/-- Everything a Step can do (R75, R135): nothing, raise what the fetch raises, or execute. -/
theorem step_cases (s : State) :
    (s.status ≠ .running ∧ step s = .next s) ∨
    (s.status = .running ∧ ∃ f, s.beginStep.fetchDecode = .error f ∧
      step s = .next (s.beginStep.raise f)) ∨
    (s.status = .running ∧ ∃ i, s.beginStep.fetchDecode = .ok i ∧
      step s = .next ((effect i s.beginStep).complete s.pc)) := by
  by_cases h : s.status = .running
  · cases hf : s.beginStep.fetchDecode with
    | error f => exact .inr (.inl ⟨h, f, rfl, by simp [step, State.canStep, h, hf]⟩)
    | ok i =>
      refine .inr (.inr ⟨h, i, rfl, ?_⟩)
      have := exec_eq i s.beginStep
      simp only [beginStep_pc] at this
      simp [step, State.canStep, h, hf, this]
  · exact .inl ⟨h, step_stopped h⟩

/-- The bytes at `pc` hold this instruction's opcode, its `ra` field and its address or constant (R56, R58). -/
def State.Holds (s : State) : Instr → Prop
  | .loadm ra a => s.opcode = 0 ∧ ra = s.raField ∧ a = s.operandByte
  | .store ra a => s.opcode = 1 ∧ ra = s.raField ∧ a = s.operandByte
  | .jumpz a => s.opcode = 2 ∧ a = s.operandByte
  | .add ra _ _ => s.opcode = 3 ∧ ra = s.raField
  | .sub ra _ _ => s.opcode = 4 ∧ ra = s.raField
  | .dec ra => s.opcode = 5 ∧ ra = s.raField
  | .inc ra => s.opcode = 6 ∧ ra = s.raField
  | .loadc ra v => s.opcode = 7 ∧ ra = s.raField ∧ v = s.operandByte
  | .copy ra _ => s.opcode = 8 ∧ ra = s.raField
  | .stop => s.opcode = 15

/-- A decoded instruction is the one the bytes at `pc` hold (R60); use it after `cases i`. -/
theorem decode_holds {s : State} {i : Instr}
    (hd : decode (s.memRead s.pc) s.operandByte = .instr i) : s.Holds i := by
  rw [decode_eq] at hd
  split at hd <;> cases hd <;> simp [State.Holds, State.opcode, State.raField, loNibble_eq, *]

theorem fetches_of_not_top {s : State} (h : ¬ (s.pc = 255 ∧ s.params.pcTop = .fault)) : s.Fetches := by
  cases hp : s.params.pcTop with
  | wrap => exact .inr hp
  | fault =>
    refine .inl ?_
    have : s.pc.toNat ≠ 255 := fun e => h ⟨BitVec.eq_of_toNat_eq e, hp⟩
    have := s.pc.isLt
    omega

/-- Everything a Step can do, in terms of the bytes at `pc` (R75, R135): nothing, the top-of-memory fault of
a fetch, an illegal opcode, or the effect of the decoded instruction. -/
theorem step_outcomes {s t : State} (h : step s = .next t) :
    (s.status ≠ .running ∧ t = s) ∨
    (s.status = .running ∧ s.pc = 255 ∧ s.params.pcTop = .fault ∧
      t = s.beginStep.raise (.pcOutOfRange s.pc)) ∨
    (s.status = .running ∧ s.Fetches ∧ 9 ≤ s.opcode ∧ s.opcode ≤ 14 ∧
      t = s.beginStep.raise (.illegalOpcode s.pc (hiNibble (s.memRead s.pc)))) ∨
    (s.status = .running ∧ s.Fetches ∧ ∃ i, decode (s.memRead s.pc) s.operandByte = .instr i ∧
      t = (effect i s.beginStep).complete s.pc) := by
  by_cases hr : s.status = .running
  · by_cases hf : s.pc = 255 ∧ s.params.pcTop = .fault
    · rw [step_of_error hr (fetchDecode_top (s := s.beginStep) hf.1 hf.2)] at h
      cases h
      exact .inr (.inl ⟨hr, hf.1, hf.2, rfl⟩)
    · have hF : s.Fetches := fetches_of_not_top hf
      cases hd : decode (s.memRead s.pc) s.operandByte with
      | instr i =>
        rw [step_of_ok hr (fetchDecode_instr (s := s.beginStep) hF hd), exec_eq] at h
        cases h
        exact .inr (.inr (.inr ⟨hr, hF, i, rfl, rfl⟩))
      | illegal op =>
        rw [step_of_error hr (fetchDecode_illegal (s := s.beginStep) hF hd)] at h
        cases h
        refine .inr (.inr (.inl ⟨hr, hF, ?_⟩))
        obtain ⟨h9, h14, rfl⟩ := decode_illegal hd
        exact ⟨h9, h14, rfl⟩
  · rw [step_stopped hr] at h
    cases h
    exact .inl ⟨hr, rfl⟩

/-- Every Step answers a next state. -/
theorem step_next (s : State) : ∃ t, step s = .next t := by
  rcases step_cases s with ⟨_, h⟩ | ⟨_, f, _, h⟩ | ⟨_, i, _, h⟩ <;> exact ⟨_, h⟩

theorem run_zero (s : State) : Sys2Proof.core.run 0 s = .next s := rfl

/-- A run unfolds by its first Step. -/
theorem run_succ {s t : State} (h : step s = .next t) (k : Nat) :
    Sys2Proof.core.run (k + 1) s = Sys2Proof.core.run k t := by
  have : Sys2Proof.core.step s = .next t := h
  rw [Host.Core.run.eq_def Sys2Proof.core (k + 1) s]
  simp only [this]

end Sys2Proof.Machine
end

