-- ==== Sys2Proof/Tests/Slice0.lean ====
section
/-! SUPPORT. Tests and witnesses. The expected values of the tests are those of 95_test_vectors (a comment
names the row) or a word written out from its encoding in 30_encoding. A witness shows that the hypotheses of
an obligation are met together by a concrete case, one for each clause where it has several. -/

namespace Sys2Proof.Tests

open Sys2Proof.Machine

/-! ### Helpers -/

/-- The state after one Step. -/
def after (s : State) : State :=
  match step s with
  | .next t => t
  | .fault _ => s
  | .refused _ => s

theorem step_after (s : State) : step s = .next (after s) := by
  obtain ⟨t, h⟩ := step_next s
  simp [after, h]

/-- The state after reset with the two bytes of an instruction at `pc`. -/
def at_ (pc b0 b1 : Byte) : State :=
  ((State.reset.memWrite pc b0).memWrite (pc + 1) b1).setPc pc

/-- A state with its policy at the top of memory set to `wrap`. -/
def wrapping (s : State) : State := { s with params := { s.params with pcTop := .wrap } }

/-- What most vectors give: register `r`, `last_result`, `cur_mem` and `pc`. -/
def view (r : RegIx) (s : State) : Byte × Byte × Option Byte × Byte :=
  (s.readReg r, s.lastResult, s.curMem, s.pc)

/-- The bytes and labels of an assembly, or its error. -/
def outcome (lines : List String) (start : Byte) : List Byte × List (Text × Nat) ⊕ AsmError :=
  match assembleLines .reject (lines.map String.toList) start with
  | .ok out => .inl (out.bytes, out.labels)
  | .error e => .inr e

/-! ### The words of the encodings, written out bit by bit (30_encoding R57, R58) -/

theorem test_decode_loadm : decode 0b00000011 0b10000000 = .instr (.loadm 3 0x80) := by decide
theorem test_decode_store : decode 0b00010001 0b01000000 = .instr (.store 1 0x40) := by decide
theorem test_decode_jumpz : decode 0b00100000 0b00001110 = .instr (.jumpz 0x0E) := by decide
theorem test_decode_add : decode 0b00111111 0b11101101 = .instr (.add 15 14 13) := by decide
theorem test_decode_sub : decode 0b01000010 0b00000001 = .instr (.sub 2 0 1) := by decide
theorem test_decode_dec : decode 0b01011010 0b01110111 = .instr (.dec 10) := by decide
theorem test_decode_inc : decode 0b01101010 0b11111111 = .instr (.inc 10) := by decide
theorem test_decode_loadc : decode 0b01110000 0b00000101 = .instr (.loadc 0 0x05) := by decide
theorem test_decode_copy : decode 0b10000011 0b00101111 = .instr (.copy 3 2) := by decide
theorem test_decode_stop : decode 0b11110101 0b00110011 = .instr .stop := by decide

/-- The six opcodes without a meaning are refused by name (2.2). -/
theorem test_decode_illegal :
    [0x90, 0xAF, 0xB0, 0xC3, 0xD0, 0xEF].map (fun b0 => decode b0 0xFF) =
      [9, 10, 11, 12, 13, 14].map Decoded.illegal := by decide

theorem test_decode_bytes :
    decodeBytes [0x70, 0x05, 0xF0] = .ok (.loadc 0 5, [0xF0]) ∧ decodeBytes [0x70] = .error .truncated := by
  decide

/-- The table's words: opcode in bits 15 to 12. -/
theorem test_table_words :
    decodeTableWord 16 0x7005 = some (.loadc 0 5) ∧ decodeTableWord 16 0x83FF = some (.copy 3 15) ∧
      decodeTableWord 16 0x9000 = none := by decide

/-! ### WellFormed: one ill-formed term for each check that can fail -/

theorem test_wf_instr : Instr.wf (.add 15 14 13) = true ∧ SourceForm.wf (.instr (.loadc 0 5)) = true := by
  decide
theorem test_wf_refuses_numeric_jump : SourceForm.wf (.instr (.jumpz 8)) = false := by decide
theorem test_wf_refuses_empty_name : SourceForm.wf (.jump []) = false := by decide
theorem test_wf_refuses_digit_in_name : SourceForm.wf (.label ['L', '1']) = false := by decide
theorem test_wf_refuses_lower_case_name : SourceForm.wf (.label ['l']) = false := by decide
theorem test_wf_refuses_repeated_label : labelsWf [(['A'], 0), (['B'], 2), (['A'], 4)] = false := by decide
theorem test_wf_refuses_bad_label : labelsWf [(['A', ' '], 0)] = false := by decide
theorem test_wf_memory :
    Memory.wf [(3, 1), (255, 2)] = true ∧ Memory.wf [(3, 1), (3, 2)] = false ∧
      Memory.wf [(4, 1), (3, 2)] = false ∧ Memory.wf [(3, 0)] = false ∧ Memory.wf [(256, 1)] = false := by
  decide

/-! ### One Step of each instruction -/

/-- M1. -/
theorem test_loadm : view 3 (after ((at_ 0x10 0x03 0x80).memWrite 0x80 0x2A)) = (0x2A, 0x2A, some 0x80, 0x12) := by
  decide
/-- M4: it reads its own second byte. -/
theorem test_loadm_own_byte : view 5 (after (at_ 0x10 0x05 0x11)) = (0x11, 0x11, some 0x11, 0x12) := by decide
/-- M5. -/
theorem test_store :
    let t := after ((at_ 0x10 0x11 0x40).writeReg 1 0x06)
    view 1 t = (0x06, 0x06, some 0x40, 0x12) ∧ t.memRead 0x40 = 0x06 := by decide
/-- M6: storing zero makes the condition zero, and the cell is not listed. -/
theorem test_store_zero :
    let t := after (((at_ 0x10 0x11 0x40).memWrite 0x40 0x77).recordResult 0x55)
    view 1 t = (0, 0, some 0x40, 0x12) ∧ t.mem = (at_ 0x10 0x11 0x40).mem := by decide
/-- M9. -/
theorem test_loadc : view 0 (after (at_ 0x10 0x70 0x05)) = (0x05, 0x05, none, 0x12) := by decide
/-- M10. -/
theorem test_loadc_zero : view 15 (after ((at_ 0x10 0x7F 0x00).recordResult 0x55)) = (0, 0, none, 0x12) := by
  decide
/-- M11. -/
theorem test_copy :
    view 3 (after (((at_ 0x10 0x83 0x20).writeReg 2 0xFF).recordResult 0x07)) = (0xFF, 0x07, none, 0x12) := by
  decide
/-- M12: copying zero does not set the condition. -/
theorem test_copy_zero :
    view 3 (after (((at_ 0x10 0x83 0x20).writeReg 3 0x31).recordResult 0x07)) = (0, 0x07, none, 0x12) := by
  decide
/-- A4. -/
theorem test_add_wraps :
    view 2 (after (((at_ 0x10 0x32 0x01).writeReg 0 0xFF).writeReg 1 0xFF)) = (0xFE, 0xFE, none, 0x12) := by
  decide
/-- A6: the destination is both sources. -/
theorem test_add_doubles : view 0 (after ((at_ 0x10 0x30 0x00).writeReg 0 0x81)) = (0x02, 0x02, none, 0x12) := by
  decide
/-- A9. -/
theorem test_sub_wraps : view 2 (after ((at_ 0x10 0x42 0x01).writeReg 1 0x01)) = (0xFF, 0xFF, none, 0x12) := by
  decide
/-- A14: the destination is the subtrahend, read before it is written. -/
theorem test_sub_order : view 0 (after ((at_ 0x10 0x40 0x10).writeReg 0 0x01)) = (0xFF, 0xFF, none, 0x12) := by
  decide
/-- A15. -/
theorem test_dec_wraps : view 0 (after (at_ 0x10 0x50 0x00)) = (0xFF, 0xFF, none, 0x12) := by decide
/-- A17. -/
theorem test_dec : view 15 (after ((at_ 0x10 0x5F 0x00).writeReg 15 0x80)) = (0x7F, 0x7F, none, 0x12) := by decide
/-- A18. -/
theorem test_inc_wraps : view 0 (after ((at_ 0x10 0x60 0x00).writeReg 0 0xFF)) = (0, 0, none, 0x12) := by decide
/-- A20: the second byte is ignored. -/
theorem test_inc : view 10 (after ((at_ 0x10 0x6A 0xFF).writeReg 10 0x7F)) = (0x80, 0x80, none, 0x12) := by decide
/-- J8, J9: taken, whatever register A holds; the low nibble of the first byte is ignored. -/
theorem test_jumpz_taken :
    let t := after ((at_ 0x08 0x2C 0x0E).writeReg 0 0x05)
    t.pc = 0x0E ∧ t.jumped = true ∧ t.lastResult = 0 := by decide
/-- J12: not taken at FE, so the advance faults. -/
theorem test_jumpz_at_the_top :
    let t := after ((at_ 0xFE 0x20 0x10).recordResult 0x01)
    t.pc = 0xFE ∧ t.status = .faulted ∧ t.fault = some (.pcOutOfRange 0xFE) ∧ t.jumped = false := by decide
/-- T2, T3: no fault at FE, and the halted machine stays. -/
theorem test_stop :
    let t := after ((at_ 0xFE 0xF0 0x00).recordResult 0x01)
    t.pc = 0xFE ∧ t.status = .halted ∧ t.fault = none ∧ t.lastResult = 0x01 ∧ after t = t := by decide

/-! ### The Step engine -/

/-- E1. -/
theorem test_illegal :
    let t := after (((at_ 0x02 0x90 0x00).writeReg 0 0x01).recordResult 0x01).markJumped
    view 0 t = (0x01, 0x01, none, 0x02) ∧ t.status = .faulted ∧ t.jumped = false ∧
      t.fault = some (.illegalOpcode 0x02 9) := by decide
/-- E3: no byte is fetched, so the illegal opcode at FF is not seen. -/
theorem test_fetch_at_the_top : (after (at_ 0xFF 0x90 0x00)).fault = some (.pcOutOfRange 0xFF) := by decide
/-- E4 and E5. -/
theorem test_advance_at_the_top :
    let t := after (at_ 0xFE 0x60 0x00)
    let u := after (wrapping (at_ 0xFE 0x60 0x00))
    view 0 t = (0x01, 0x01, none, 0xFE) ∧ t.fault = some (.pcOutOfRange 0xFE) ∧
      view 0 u = (0x01, 0x01, none, 0x00) ∧ u.status = .running := by decide
/-- E6: the second byte is fetched at 00. -/
theorem test_fetch_wraps : view 0 (after (wrapping (at_ 0xFF 0x70 0x07))) = (0x07, 0x07, none, 0x01) := by decide
/-- The next Step runs a placed table word, from reset and from a stopped state. -/
theorem test_fetch_word :
    view 0 (after (State.reset.withFetchWord 16 0x7005)) = (0x05, 0x05, none, 0x02) ∧
      view 0 (after ((at_ 0x80 0xF0 0x00).halt.withFetchWord 16 0x7005)) = (0x05, 0x05, none, 0x82) := by
  decide

/-! ### Load, the assembler, the disassembly -/

/-- L3: the image is cut at the top of memory. -/
theorem test_load :
    (match load [0xAA, 0xBB, 0xCC, 0xDD] 0xFE State.reset with
      | .next t => some (t.mem, t.pc)
      | _ => none) = some ([(0xFE, 0xAA), (0xFF, 0xBB)], 0xFE) := by decide

/-- `START` is 0 where none is given (R5). -/
theorem test_default_start (s : State) (src : Text) :
    load [0x70, 0x05] (s := s) = load [0x70, 0x05] 0 s ∧ assemble .reject src = assemble .reject src 0 ∧
      HostOp.load [0x70] = .load [0x70] 0 ∧ HostOp.assemble src = .assemble src 0 := ⟨rfl, rfl, rfl, rfl⟩

/-- S7 and R137: a failed Assemble is reported, and the machine is there to step on. -/
theorem test_failed_assemble :
    ∃ b, Block.run ⟨at_ 0x10 0x70 0x05, none, none⟩ [.assemble "FOO A B".toList, .step] = .next b ∧
      b.asmError = some (.unrecognizedLine 1) ∧ b.asm = none ∧ view 0 b.cpu = (0x05, 0x05, none, 0x12) :=
  ⟨_, rfl, by decide, by decide, by decide⟩

/-- P1, the source's own scenario: labels forward and backward. -/
theorem test_assemble_scenario :
    outcome ["LOADC A 00", "LOOP:", "INC A", "JUMPZ END", "JUMPZ LOOP", "END:", "STOP"] 0 =
      .inl ([0x70, 0x00, 0x60, 0x00, 0x20, 0x08, 0x20, 0x02, 0xF0, 0x00],
        [("LOOP".toList, 2), ("END".toList, 8)]) := by decide
/-- AS10: the start offset. -/
theorem test_assemble_start :
    outcome ["JUMPZ E", "E:", "STOP"] 0x10 = .inl ([0x20, 0x12, 0xF0, 0x00], [("E".toList, 0x12)]) := by decide
/-- AS7: an error of pass 1 comes before one of pass 2. -/
theorem test_assemble_error_order :
    outcome ["JUMPZ NOWHERE", "", "BAD LINE"] 0 = .inr (.unrecognizedLine 3) := by decide
/-- AS5, AS6. -/
theorem test_assemble_labels :
    outcome ["JUMPZ X", "STOP"] 0 = .inr (.unknownLabel 1 "X".toList) ∧
      outcome ["A:", "STOP", "A:"] 0 = .inr (.duplicateLabel 3 "A".toList) := by decide
/-- AS17 to AS22: lines of no form. -/
theorem test_assemble_refuses :
    ["LOOP :", "END: STOP", "LOADC A, 05", "LOADC Q 05", "STOP A", "JUMPZ 08"].map
        (fun l => parseForm (normalize l.toList)) = List.replicate 6 none := by decide
/-- 30_encoding R64. -/
theorem test_disassemble :
    [Instr.jumpz 0x1C, .add 15 14 13, .loadm 3 0x80].map disassemble =
      ["JUMPZ @1C".toList, "ADD P O N".toList, "LOADM D 80".toList] := by decide

/-! ### Witnesses: the instructions

`witness_executes` is for the nine statements of a result below the top of memory (LOADM, STORE, LOADC, COPY,
ADD, SUB, DEC, INC, and JUMPZ not taken with the last result 1), in both clauses of `State.Advances`. -/

theorem witness_executes :
    let s := (at_ 253 0x30 0x12).recordResult 1
    let w := (wrapping (at_ 255 0x30 0x12)).recordResult 1
    (s.Executing ∧ s.Advances ∧ s.lastResult ≠ 0) ∧ w.Executing ∧ w.Advances ∧ w.lastResult ≠ 0 := by decide

/-- JUMPZ taken, and STOP, at the top of memory under the fault policy. -/
theorem witness_taken_at_the_top : (at_ 254 0x20 0x10).Executing ∧ (at_ 254 0x20 0x10).lastResult = 0 := by
  decide

/-- The frames' hypothesis, in each of their clauses: the condition kept, and the top-of-memory fault. -/
theorem witness_frame_of_the_register_writers :
    (∀ i ∈ [Instr.loadm 3 0x80, .loadc 3 5, .copy 3 2, .add 3 3 3, .sub 3 1 2, .dec 3, .inc 3],
      destReg i = some 3 ∧ exec i State.reset = .next ((effect i State.reset).complete 0)) ∧
    exec (.inc 3) (at_ 254 0x63 0) = .next ((at_ 254 0x63 0).finishAlu 3 1) ∧
      ((at_ 254 0x63 0).finishAlu 3 1).status = .faulted :=
  ⟨fun i h => ⟨by revert i; decide, exec_eq i _⟩, rfl, by decide⟩

theorem witness_frame_of_store :
    exec (.store 1 0xFF) State.reset = .next ((effect (.store 1 0xFF) State.reset).complete 0) ∧
      (0xFE : Byte) ≠ dataAddress 0xFF := ⟨exec_eq _ _, by decide⟩

theorem witness_frame_of_control :
    exec (.jumpz 8) State.reset = .next ((effect (.jumpz 8) State.reset).complete 0) ∧
      exec (.jumpz 8) (State.reset.recordResult 1) =
        .next ((effect (.jumpz 8) (State.reset.recordResult 1)).complete 0) ∧
      (State.reset.recordResult 1).lastResult ≠ 0 ∧
      exec .stop State.reset = .next ((effect .stop State.reset).complete 0) :=
  ⟨exec_eq _ _, exec_eq _ _, by decide, exec_eq _ _⟩

/-! ### Witnesses: faults and the Step engine -/

/-- At both addresses, an instruction that is no jump and a JUMPZ not taken. -/
theorem witness_advance_past_the_top :
    ∀ s ∈ [(at_ 254 0x60 0).recordResult 1, (at_ 255 0x60 0).recordResult 1],
      s.Executing ∧ 254 ≤ s.pc.toNat ∧ s.params.pcTop = .fault ∧ Instr.inc 0 ≠ .stop ∧ Instr.jumpz 8 ≠ .stop ∧
        (∀ a : Byte, Instr.inc 0 = .jumpz a → s.lastResult ≠ 0) ∧
        ∀ a : Byte, Instr.jumpz 8 = .jumpz a → s.lastResult ≠ 0 := by
  intro s h
  simp only [List.mem_cons, List.not_mem_nil, or_false] at h
  rcases h with rfl | rfl <;>
    exact ⟨by decide, by decide, by decide, by decide, by decide, by simp, fun _ _ => by decide⟩

theorem witness_fetch_at_the_top :
    (at_ 255 0x90 0).status = .running ∧ (at_ 255 0x90 0).pc = 255 ∧ (at_ 255 0x90 0).params.pcTop = .fault := by
  decide

/-- The lowest and the highest illegal opcode, and the highest `pc` that fetches. -/
theorem witness_illegal_opcode :
    (∀ b0 ∈ [0x90, 0xEF], (at_ 254 b0 0).status = .running ∧ (at_ 254 b0 0).Fetches ∧
      9 ≤ (at_ 254 b0 0).opcode ∧ (at_ 254 b0 0).opcode ≤ 14) ∧
    (wrapping (at_ 255 0xEF 0)).Fetches := by decide

theorem witness_step_runs :
    let s := at_ 254 0x7F 0x05
    let w := wrapping (at_ 255 0x7F 0x05)
    (s.status = .running ∧ s.Fetches ∧ decode (s.memRead s.pc) s.operandByte = .instr (.loadc 15 5)) ∧
      w.status = .running ∧ w.Fetches ∧ decode (w.memRead w.pc) w.operandByte = .instr (.loadc 15 5) := by decide

theorem witness_stopped :
    (at_ 0 0xF0 0).halt.status ≠ .running ∧ (State.reset.raise (.pcOutOfRange 255)).status ≠ .running := by
  decide

/-- Its three conclusions: faulted before, the top of memory, an illegal opcode. -/
theorem witness_nothing_else_faults :
    ∀ s ∈ [State.reset.raise (.illegalOpcode 0 9), at_ 254 0x60 0, at_ 255 0 0, at_ 0 0xE0 0],
      step s = .next (after s) ∧ (after s).status = .faulted :=
  fun s h => ⟨step_after s, by revert s; decide⟩

/-! ### Witnesses: encoding -/

/-- A canonical word and one that is not. -/
theorem witness_canonical_words :
    (decode 0x83 0x20 = .instr (.copy 3 2) ∧ encode (.copy 3 2) = (0x83, 0x20)) ∧
      decode 0x83 0x2F = .instr (.copy 3 2) ∧ encode (.copy 3 2) ≠ (0x83, 0x2F) := by decide

/-- A first byte for every clause of the decoder's fields. -/
theorem witness_decoder_fields :
    [0x0F, 0x1F, 0x2F, 0x3F, 0x4F, 0x5F, 0x6F, 0x7F, 0x8F, 0x90, 0xEF, 0xFF].map
        (fun b0 : Byte => b0.toNat / 16) = [0, 1, 2, 3, 4, 5, 6, 7, 8, 9, 14, 15] := by decide

/-! ### Witnesses: rules of the whole machine -/

theorem witness_memory_written :
    let s := (at_ 0x10 0x11 0xFF).writeReg 1 0x06
    step s = .next (after s) ∧ (after s).memRead 0xFF ≠ s.memRead 0xFF := ⟨step_after _, by decide⟩

theorem witness_register_written :
    let s := at_ 0x10 0x7F 0x06
    step s = .next (after s) ∧ (after s).readReg 15 ≠ s.readReg 15 := ⟨step_after _, by decide⟩

/-- The three ways of `pc`. -/
theorem witness_pc_moves :
    let s := at_ 0x10 0xF0 0
    let u := wrapping (at_ 254 0x60 0)
    let w := at_ 254 0x20 0x81
    (step s = .next (after s) ∧ (after s).pc = 0x10) ∧ (step u = .next (after u) ∧ (after u).pc = 0) ∧
      step w = .next (after w) ∧ (after w).pc = 0x81 :=
  ⟨⟨step_after _, by decide⟩, ⟨step_after _, by decide⟩, step_after _, by decide⟩

theorem witness_halts :
    let s := at_ 255 0xF0 0
    step (wrapping s) = .next (after (wrapping s)) ∧ (after (wrapping s)).status = .halted ∧
      (wrapping s).status ≠ .halted := ⟨step_after _, by decide, by decide⟩

theorem witness_jumped :
    (at_ 8 0x20 8).status = .running ∧ step (at_ 8 0x20 8) = .next (after (at_ 8 0x20 8)) ∧
      (after (at_ 8 0x20 8)).jumped = true ∧ (after (at_ 8 0x60 8)).jumped = false :=
  ⟨by decide, step_after _, by decide, by decide⟩

/-- A writer of a register and the writer of memory. -/
theorem witness_last_result_written :
    let s := at_ 0x10 0x60 0
    let u := (at_ 0x10 0x11 0x10).writeReg 1 0x06
    (step s = .next (after s) ∧ (after s).lastResult ≠ s.lastResult) ∧
      step u = .next (after u) ∧ (after u).lastResult ≠ u.lastResult :=
  ⟨⟨step_after _, by decide⟩, step_after _, by decide⟩

theorem witness_transients : (at_ 0x10 0x60 0).markJumped.status = .running := by decide

/-- At the last address where the next instruction lies whole below the top. -/
theorem witness_store_into_the_next :
    let s := (at_ 252 0x11 254).writeReg 1 0xF0
    s.status = .running ∧ s.pc.toNat < 253 ∧ s.readReg 1 = 0xF0 ∧
      s.memRead s.pc = (encode (.store 1 (s.pc + 2))).1 ∧ s.operandByte = s.pc + 2 := by decide

theorem witness_jump_to_itself :
    let s := at_ 254 0x20 254
    s.status = .running ∧ s.Fetches ∧ s.opcode = 2 ∧ s.operandByte = s.pc ∧ s.lastResult = 0 := by decide

theorem witness_parity :
    let s := at_ 0x0B 0x61 0
    step s = .next (after s) ∧ (after s).jumped = false ∧ (after s).pc = 0x0D :=
  ⟨step_after _, by decide, by decide⟩

/-! ### Witnesses: invariants and the host's operations -/

/-- After a taken jump, after a STORE, halted, and faulted in both ways. -/
theorem witness_coherent :
    ∀ s ∈ [at_ 8 0x20 8, (at_ 0x10 0x11 0x40).writeReg 1 6, at_ 8 0xF0 0, at_ 8 0x90 0, at_ 254 0x60 0],
      (after s).Coherent ∧ step (after s) = .next (after (after s)) := by
  intro s h
  refine ⟨?_, step_after _⟩
  simp only [List.mem_cons, List.not_mem_nil, or_false] at h
  unfold State.Coherent State.HostInv State.RecordInv State.TransientInv State.StopInv
  rcases h with rfl | rfl | rfl | rfl | rfl
  all_goals
    refine ⟨⟨by decide, by decide⟩, ⟨by decide, ?_⟩, by decide, ?_, ?_⟩
    · intro a ha
      first
      | (cases ha; decide)
      | cases ha
    · intro p op hp
      first
      | (cases hp; decide)
      | cases hp
    · intro p hp
      first
      | (cases hp; decide)
      | cases hp

/-- A block whose CPU is stopped or not. -/
def block (s : State) : Block := ⟨s, none, none⟩

theorem witness_host_operations :
    let b := block State.reset
    b.cpu.HostInv ∧
      ∃ b', b.run [.load [0xE0] 255, .step, .assemble "STOP".toList 255, .reset, .step] = .next b' :=
  ⟨⟨by decide, by unfold State.RecordInv; decide⟩, _, rfl⟩

theorem witness_stopped_block :
    let b := block (State.reset.raise (.pcOutOfRange 255))
    let ops : List HostOp := [.step, .assemble "STOP".toList 0, .step]
    b.cpu.status ≠ .running ∧ (∀ op ∈ ops, op = .step ∨ ∃ src start, op = .assemble src start) ∧
      ∃ b', b.run ops = .next b' :=
  ⟨by decide, by simp, _, rfl⟩

/-- The lowest and highest start, with an image that fits and one that is cut; and the first start refused. -/
theorem witness_starts : (0 : Nat) < 256 ∧ 255 < 256 ∧ 256 ≤ 256 ∧ min [0xAA, 0xBB].length (256 - 255) = 1 := by
  decide

/-- An assembly on a block at the highest start, one that succeeds and one that fails. -/
theorem witness_assemble_on_a_block :
    255 < 256 ∧ (∃ out, assembleLines .reject (splitLines "STOP".toList) 255 = .ok out) ∧
      ∃ e, assembleLines .reject (splitLines "FOO A B".toList) 255 = .error e :=
  ⟨by decide, ⟨_, rfl⟩, _, rfl⟩

/-! ### Witnesses: the assembler -/

/-- A source with a forward jump, a label and an instruction. -/
def forward : List Text := ["jumpz End".toList, "".toList, " END:".toList, "STOP".toList]

/-- For every statement that starts from an assembly that succeeds, at two starts (for `start'`), a label
(at the count 1), a line that is no jump, and both clauses of its letter case. -/
theorem witness_assembles :
    (∃ out, assembleLines .reject forward 0 = .ok out ∧ out.lines[1]? = some "STOP".toList ∧
      lookupLabel out.labels "END".toList = some 2) ∧
    (∃ out, assembleLines .reject forward 253 = .ok out ∧ lookupLabel out.labels "END".toList = some 255) ∧
    forward = ["jumpz End".toList, []] ++ " END:".toList :: ["STOP".toList] ∧
    declaredName " END:".toList = some "END".toList ∧
    (∀ name : Text, parseForm (normalize "STOP".toList) ≠ some (.jump name)) ∧
    assembleLines .reject ["foo".toList] 0 = .error (.unrecognizedLine 1) := by
  refine ⟨⟨_, rfl, by decide, by decide⟩, ⟨_, rfl, by decide⟩, by decide, by decide, ?_, rfl⟩
  have : parseForm (normalize "STOP".toList) = some (.instr .stop) := by decide
  intro name hn
  rw [this] at hn
  cases hn

/-- The jumps of `forward`. -/
theorem forward_jumps {line name : Text} (hl : line ∈ forward)
    (hp : parseForm (normalize line) = some (.jump name)) : name = "END".toList := by
  have hj : ∀ line ∈ forward, parseForm (normalize line) = some (.jump "END".toList) ∨
      parseForm (normalize line) = none ∨ parseForm (normalize line) = some (.label "END".toList) ∨
      parseForm (normalize line) = some (.instr .stop) := by decide
  rcases hj line hl with h | h | h | h <;> rw [h] at hp <;> cases hp
  rfl

/-- At the highest start for which its label fits. -/
theorem witness_good_source :
    (∀ line ∈ forward, normalize line = [] ∨ (parseForm (normalize line)).isSome = true) ∧
    (forward.filterMap declaredName).Nodup ∧ (∀ e ∈ labelTable 253 0 forward, e.2 ≤ 255) ∧
    ∀ line ∈ forward, ∀ name : Text, parseForm (normalize line) = some (.jump name) →
      name ∈ forward.filterMap declaredName := by
  refine ⟨by decide, by decide, by decide, fun line hl name hp => ?_⟩
  rw [forward_jumps hl hp]
  decide

theorem witness_blank_source : ∀ line ∈ [[], " \t".toList], normalize line = [] := by decide

/-- A prefix that assembles, then a line of no form. -/
theorem witness_unrecognized :
    (∃ r, pass1 .reject (AsmRun.empty 0) 1 forward = .ok r) ∧ normalize "FOO A B".toList ≠ [] ∧
      parseForm (normalize "FOO A B".toList) = none := ⟨⟨_, rfl⟩, by decide, by decide⟩

/-- The second jump names no label, the first does. -/
theorem witness_unknown_label :
    ∃ r, pass1 .reject (AsmRun.empty 0) 1 (forward ++ "JUMPZ X".toList :: ["BACK:".toList]) = .ok r ∧
      parseForm (normalize "JUMPZ X".toList) = some (.jump "X".toList) ∧
      lookupLabel r.labels "X".toList = none ∧
      ∀ l ∈ forward, ∀ m : Text, parseForm (normalize l) = some (.jump m) →
        (lookupLabel r.labels m).isSome = true := by
  refine ⟨_, rfl, by decide, by decide, fun l hl m hm => ?_⟩
  rw [forward_jumps hl hm]
  decide

/-- A name declared again, and the first address above 255; 255 itself is `witness_assembles`. -/
theorem witness_declarations :
    (∃ r, pass1 .reject (AsmRun.empty 254) 1 ["STOP".toList] = .ok r) ∧
    declaredName "X:".toList = some "X".toList ∧
    "X".toList ∉ ["STOP".toList].filterMap declaredName ∧
    2 * (emittedLines ["STOP".toList]).length + (254 : Byte).toNat = 256 ∧
    (∃ r, pass1 .reject (AsmRun.empty 254) 1 ["X:".toList] = .ok r) ∧
    "X".toList ∈ ["X:".toList].filterMap declaredName :=
  ⟨⟨_, rfl⟩, by decide, by decide, by decide, ⟨_, rfl⟩, by decide⟩

theorem witness_parsed_lines :
    parseForm (normalize "jumpz a".toList) = some (.jump ['A']) ∧
      parseForm (normalize "A:".toList) = some (.label ['A']) ∧
      parseForm (normalize "INC A".toList) = some (.instr (.inc 0)) := by decide

theorem witness_lines :
    ∀ lines ∈ [forward, [[]]], lines ≠ [] ∧ ∀ l ∈ lines, '\n' ∉ l ∧ '\r' ∉ l := by decide

theorem witness_disassembly : ∀ a : Byte, Instr.stop ≠ .jumpz a := by simp

end Sys2Proof.Tests
end

section
/-! PROOFS. The statements about the encoding (30_encoding). -/

namespace Sys2Proof

/-- Settles O25: by the decoder's equation in the opcode nibble, the table's sixteen entries are its sixteen cases. -/
theorem opcodeAloneSelectsTheInstruction : Obligations.OpcodeAloneSelectsTheInstruction := by
  intro b0 b1
  have opcode_lt : b0.toNat / 16 < 16 := by omega
  rw [decode_eq]
  generalize b0.toNat / 16 = opcode at *
  interval_cases opcode <;> rfl

end Sys2Proof
end

section
/-! PROOFS. The statement about the integer laws (42_arithmetic R90). -/

namespace Sys2Proof.Machine

/-! ### The first column of R90's table: the four functions modulo 256 -/

theorem addByte_toNat (a b : Byte) : (addByte a b).toNat = (a.toNat + b.toNat) % 256 :=
  BitVec.toNat_add a b

theorem subByte_toNat (a b : Byte) :
    ((subByte a b).toNat : Int) = (a.toNat - b.toNat : Int) % 256 := by
  have : (subByte a b).toNat = (256 - b.toNat + a.toNat) % 256 := BitVec.toNat_sub a b
  omega

theorem incByte_toNat (a : Byte) : (incByte a).toNat = (a.toNat + 1) % 256 :=
  addByte_toNat a 1

theorem decByte_toNat (a : Byte) : ((decByte a).toNat : Int) = (a.toNat - 1 : Int) % 256 :=
  subByte_toNat a 1

/-! ### The second column: one case without wrapping, one with -/

theorem addByte_toNat_cases (a b : Byte) :
    (addByte a b).toNat =
      if a.toNat + b.toNat ≤ 255 then a.toNat + b.toNat else a.toNat + b.toNat - 256 := by
  have h := addByte_toNat a b
  split <;> omega

theorem subByte_toNat_cases (a b : Byte) :
    ((subByte a b).toNat : Int) =
      if b.toNat ≤ a.toNat then (a.toNat : Int) - b.toNat else (a.toNat : Int) - b.toNat + 256 := by
  have h := subByte_toNat a b
  split <;> omega

theorem incByte_toNat_cases (a : Byte) :
    (incByte a).toNat = if a.toNat ≤ 254 then a.toNat + 1 else 0 := by
  have h := incByte_toNat a
  split <;> omega

theorem decByte_toNat_cases (a : Byte) :
    (decByte a).toNat = if 1 ≤ a.toNat then a.toNat - 1 else 255 := by
  have h := decByte_toNat a
  split <;> omega

/-! ### Nothing but the recorded result -/

/-- Instructions with one effect answer one next state, since `exec` is the effect and the shared end of the Step. -/
theorem exec_next_same_of_effect_eq {i j : Instr} {s : State} (h : effect i s = effect j s) :
    ∃ t, exec i s = .next t ∧ exec j s = .next t :=
  ⟨(effect i s).complete s.pc, exec_eq i s, by rw [exec_eq, h]⟩

end Sys2Proof.Machine

namespace Sys2Proof
open Sys2Proof.Machine

/-- Settles O12: both columns from the byte functions' values, and no flag or trap because each ALU
instruction's effect is LOADC's effect of the 8-bit result. -/
theorem arithmeticWrapsModulo256 : Obligations.ArithmeticWrapsModulo256 := by
  refine ⟨fun a b => ?_, fun ra rb rc s => ?_⟩
  · exact ⟨⟨addByte_toNat a b, addByte_toNat_cases a b⟩, ⟨subByte_toNat a b, subByte_toNat_cases a b⟩,
      ⟨incByte_toNat a, incByte_toNat_cases a⟩, decByte_toNat a, decByte_toNat_cases a⟩
  · have add_effect : effect (.add ra rb rc) s =
        effect (.loadc ra (addByte (s.readReg rb) (s.readReg rc))) s := rfl
    have sub_effect : effect (.sub ra rb rc) s =
        effect (.loadc ra (subByte (s.readReg rb) (s.readReg rc))) s := rfl
    have inc_effect : effect (.inc ra) s = effect (.loadc ra (incByte (s.readReg ra))) s := rfl
    have dec_effect : effect (.dec ra) s = effect (.loadc ra (decByte (s.readReg ra))) s := rfl
    exact ⟨exec_next_same_of_effect_eq add_effect, exec_next_same_of_effect_eq sub_effect,
      exec_next_same_of_effect_eq inc_effect, exec_next_same_of_effect_eq dec_effect⟩

end Sys2Proof
end

section
/-! PROOFS. The statements about the line and the label that assembly reports (50_assembler R120, R121, R138). -/

namespace Sys2Proof.Machine

/-! ### An error of pass 1 -/

/-- Pass 1 stops at the first line that raises, whatever lines follow (R138). -/
theorem pass1_error_of_line {pol : LabelOverflow} {before after : List Text} {line : Text}
    {r r' : AsmRun} {n : Nat} {err : AsmError} (hbefore : pass1 pol r n before = .ok r')
    (hline : pass1Line pol r' (n + before.length) line = .error err) :
    pass1 pol r n (before ++ line :: after) = .error err := by
  rw [pass1_append, hbefore]
  simp [pass1, hline]

/-- A line that pass 1 raises on, after lines it gets through, is the error of the assembly. -/
theorem assembleLines_error_of_line {pol : LabelOverflow} {before after : List Text} {line : Text}
    {start : Byte} {r : AsmRun} {err : AsmError}
    (hbefore : pass1 pol (AsmRun.empty start) 1 before = .ok r)
    (hline : pass1Line pol r (before.length + 1) line = .error err) :
    assembleLines pol (before ++ line :: after) start = .error err := by
  rw [Nat.add_comm] at hline
  rw [assembleLines, pass1_error_of_line hbefore hline]

theorem pass1Line_unrecognized {pol : LabelOverflow} {r : AsmRun} {n : Nat} {line : Text}
    (hblank : normalize line ≠ []) (hform : parseForm (normalize line) = none) :
    pass1Line pol r n line = .error (.unrecognizedLine n) := by
  simp [pass1Line, hblank, hform]

/-! ### An error of pass 2 -/

theorem entryOf_isSome_of_jump {line name : Text} (n : Nat)
    (hjump : parseForm (normalize line) = some (.jump name)) : (entryOf n line).isSome = true := by
  simp [entryOf, hjump]

/-- Pass 2 stops at the first jump that is not resolved, whatever entries follow (R120). -/
theorem pass2_error_of_line {labels : List (Text × Nat)} {before after : List Text}
    {line name : Text} {n : Nat} (hbefore : ∀ l ∈ before, Resolved labels l)
    (hjump : parseForm (normalize line) = some (.jump name)) (hnone : lookupLabel labels name = none) :
    pass2 labels (entriesFrom n (before ++ line :: after)) =
      .error (.unknownLabel (n + before.length) name) := by
  obtain ⟨prog, hprog, -⟩ := pass2_resolved n hbefore
  obtain ⟨e, he⟩ := Option.isSome_iff_exists.1 (entryOf_isSome_of_jump (n + before.length) hjump)
  have hline : pass2 labels (entriesFrom (n + before.length) (line :: after)) =
      .error (.unknownLabel (n + before.length) name) := by
    simp [entriesFrom, he, pass2, patchEntry_unresolved he hjump hnone]
  rw [entriesFrom_append]
  exact pass2_append_error hprog hline

/-- The Program pass 1 leaves from an empty run: the entries of the lines. -/
theorem pass1_prog {pol : LabelOverflow} {lines : List Text} {start : Byte} {r : AsmRun}
    (h : pass1 pol (AsmRun.empty start) 1 lines = .ok r) : r.prog = entriesFrom 1 lines := by
  rw [pass1_ok h]
  rfl

end Sys2Proof.Machine

namespace Sys2Proof
open Sys2Proof.Machine

/-- Settles O51: pass 1 raises on the line itself, and stops there. -/
theorem firstUnrecognizedLineIsReported : Obligations.FirstUnrecognizedLineIsReported := by
  intro pol before line after start r hbefore hblank hform
  exact assembleLines_error_of_line hbefore (pass1Line_unrecognized hblank hform)

/-- Settles O52: pass 2 gets through the entries of the resolved lines before the jump, and stops at its entry. -/
theorem firstUnknownLabelIsReported : Obligations.FirstUnknownLabelIsReported := by
  intro pol before line after start r name hpass hjump hnone hbefore
  have hpass2 : pass2 r.labels r.prog = .error (.unknownLabel (before.length + 1) name) := by
    rw [pass1_prog hpass, pass2_error_of_line hbefore hjump hnone, Nat.add_comm]
  rw [assembleLines, hpass]
  simp only [hpass2]

end Sys2Proof
end

section
/-! PROOFS. The statement about an image longer than the cells above its start (60_exceptions R139). -/

namespace Sys2Proof.Machine

/-- The state a Load leaves (R32): the image's first `256 - start` bytes from `start` up, and `pc` set. -/
def State.loadImage (s : State) (bytes : List Byte) (start : Nat) : State :=
  { s with mem := Memory.writeCells s.mem start (bytes.take (256 - start)), pc := BitVec.ofNat 8 start }

theorem load_eq_next {start : Nat} (hstart : start < 256) (bytes : List Byte) (s : State) :
    load bytes start s = .next (s.loadImage bytes start) := if_pos hstart

@[simp] theorem loadImage_status (s : State) (bytes : List Byte) (start : Nat) :
    (s.loadImage bytes start).status = s.status := rfl

/-- The bytes above the cut have no effect (R139). -/
theorem loadImage_take (s : State) (bytes : List Byte) (start : Nat) :
    s.loadImage (bytes.take (256 - start)) start = s.loadImage bytes start := by
  simp [State.loadImage, List.take_take]

/-- Every cell after a Load: those of the image hold it, every other is as before (R32). -/
theorem loadImage_memRead (s : State) (bytes : List Byte) (start : Nat) (a : Byte) :
    (s.loadImage bytes start).memRead a =
      if start ≤ a.toNat ∧ a.toNat < start + min bytes.length (256 - start) then
        bytes.getD (a.toNat - start) 0
      else s.memRead a := by
  have hread := readCell_writeCells (bytes.take (256 - start)) s.mem start a.toNat
  rw [List.length_take, Nat.min_comm] at hread
  refine hread.trans (ite_congr rfl (fun himage => ?_) fun _ => rfl)
  have hcut : a.toNat - start < 256 - start := by omega
  simp [List.getD_eq_getElem?_getD, List.getElem?_take_of_lt hcut]

end Sys2Proof.Machine

namespace Sys2Proof
open Sys2Proof.Machine

/-- Settles O43: Load takes no more than the first `256 - start` bytes, and the law of its cells is read at
`start + j`, an address that does not wrap. -/
theorem loadTruncatesWithoutError : Obligations.LoadTruncatesWithoutError := by
  intro bytes start s hstart
  refine ⟨?_, _, load_eq_next hstart bytes s, loadImage_status s bytes start, fun j hj => ?_⟩
  · rw [load_eq_next hstart, load_eq_next hstart, loadImage_take]
  · have haddress : (BitVec.ofNat 8 (start + j)).toNat = start + j :=
      (BitVec.toNat_ofNat (start + j) 8).trans (Nat.mod_eq_of_lt (by omega))
    have himage : start ≤ start + j ∧ start + j < start + min bytes.length (256 - start) := by omega
    rw [loadImage_memRead, haddress, if_pos himage, Nat.add_sub_cancel_left]

end Sys2Proof
end

section
/-! PROOFS. The statements about the encoder and the decoder (30_encoding sections 3 and 4). -/

namespace Sys2Proof

/-! ### Words byte by byte -/

theorem wordOf_inj {a b x y : Byte} : wordOf a b = wordOf x y ↔ a = x ∧ b = y := by
  refine ⟨fun h => ?_, fun ⟨ha, hb⟩ => ha ▸ hb ▸ rfl⟩
  have left (u v : Byte) : BitVec.extractLsb' 8 8 (wordOf u v) = u := BitVec.extractLsb'_append_eq_left
  have right (u v : Byte) : BitVec.extractLsb' 0 8 (wordOf u v) = v := BitVec.extractLsb'_append_eq_right
  exact ⟨by rw [← left a b, h, left], by rw [← right a b, h, right]⟩

/-- A word agrees with a mask exactly if each of its bytes agrees with its half of the mask. -/
theorem wordOf_and_eq_iff (b0 b1 m n x y : Byte) :
    wordOf b0 b1 &&& wordOf m n = wordOf x y ↔ b0 &&& m = x ∧ b1 &&& n = y := by
  rw [Laws.TableRow.word_and, wordOf_inj]

/-- The laws of the opcode table, row by row. -/
theorem tableRow_statement (i : Instr) : Laws.TableRow.Statement i :=
  match i with
  | .loadm ra a => (Laws.TableRow.loadm ra a)
  | .store ra a => (Laws.TableRow.store ra a)
  | .jumpz a => (Laws.TableRow.jumpz a)
  | .add ra rb rc => (Laws.TableRow.add ra rb rc)
  | .sub ra rb rc => (Laws.TableRow.sub ra rb rc)
  | .dec ra => (Laws.TableRow.dec ra)
  | .inc ra => (Laws.TableRow.inc ra)
  | .loadc ra v => (Laws.TableRow.loadc ra v)
  | .copy ra rb => (Laws.TableRow.copy ra rb)
  | .stop => Laws.TableRow.stop

theorem encode_agrees_with_canonMask (i : Instr) :
    wordOf (encode i).1 (encode i).2 &&& i.row.canonMask = i.row.canonMatch := by
  obtain ⟨-, -, hcanon⟩ := tableRow_statement i
  exact hcanon

/-! ### The bytes of a decoded word -/

/-- A byte whose opcode nibble is `op`, made of its two nibbles. -/
theorem opcode_append {b : Byte} {op : Nibble} (h : b.toNat / 16 = op.toNat) : op ++ loNibble b = b := by
  have : hiNibble b = op := BitVec.eq_of_toNat_eq ((hiNibble_toNat b).trans h)
  rw [← this, nibbles_append]

theorem and_0xFF_eq (b x : Byte) : b &&& 0xFF = x ↔ b = x := by
  rw [show (0xFF : Byte) = BitVec.allOnes 8 from rfl, BitVec.and_allOnes]

theorem and_0x0F_eq_zero : ∀ b : Byte, b &&& 0x0F = 0 → hiNibble b ++ 0x0#4 = b := by decide

/-- The word that decodes to `i` is its encoding as soon as the unused bits are those of the encoding. -/
theorem encode_of_decode_of_canonical {b0 b1 : Byte} {i : Instr} (hd : decode b0 b1 = .instr i)
    (hc : wordOf b0 b1 &&& i.row.canonMask = i.row.canonMatch) : encode i = (b0, b1) := by
  rw [decode_eq] at hd
  split at hd <;> cases hd
  case h_1 h => exact Prod.ext (opcode_append (op := 0x0) h) rfl
  case h_2 h => exact Prod.ext (opcode_append (op := 0x1) h) rfl
  case h_3 h =>
    have hbytes := (wordOf_and_eq_iff b0 b1 0xFF 0x00 0x20 0x00).1 hc
    exact Prod.ext ((and_0xFF_eq _ _).1 hbytes.1).symm rfl
  case h_4 h => exact Prod.ext (opcode_append (op := 0x3) h) (nibbles_append b1)
  case h_5 h => exact Prod.ext (opcode_append (op := 0x4) h) (nibbles_append b1)
  case h_6 h =>
    have hbytes := (wordOf_and_eq_iff b0 b1 0xF0 0xFF 0x50 0x00).1 hc
    exact Prod.ext (opcode_append (op := 0x5) h) ((and_0xFF_eq _ _).1 hbytes.2).symm
  case h_7 h =>
    have hbytes := (wordOf_and_eq_iff b0 b1 0xF0 0xFF 0x60 0x00).1 hc
    exact Prod.ext (opcode_append (op := 0x6) h) ((and_0xFF_eq _ _).1 hbytes.2).symm
  case h_8 h => exact Prod.ext (opcode_append (op := 0x7) h) rfl
  case h_9 h =>
    have hbytes := (wordOf_and_eq_iff b0 b1 0xF0 0x0F 0x80 0x00).1 hc
    exact Prod.ext (opcode_append (op := 0x8) h) (and_0x0F_eq_zero b1 hbytes.2)
  case h_10 h =>
    have hbytes := (wordOf_and_eq_iff b0 b1 0xFF 0xFF 0xF0 0x00).1 hc
    exact Prod.ext ((and_0xFF_eq _ _).1 hbytes.1).symm ((and_0xFF_eq _ _).1 hbytes.2).symm

/-! ### One opcode at a time -/

/-- Six opcodes are illegal, whatever byte follows (R61). -/
theorem decode_illegal_of_opcode {b0 : Byte} (b1 : Byte) (h9 : 9 ≤ b0.toNat / 16)
    (h14 : b0.toNat / 16 ≤ 14) : decode b0 b1 = .illegal (BitVec.ofNat 4 (b0.toNat / 16)) := by
  rw [decode_eq, hiNibble_eq b0]
  generalize b0.toNat / 16 = opcode at h9 h14
  interval_cases opcode <;> rfl

theorem decode_jumpz_of_opcode {b0 : Byte} (b1 : Byte) (h : b0.toNat / 16 = 2) :
    decode b0 b1 = .instr (.jumpz b1) := by
  simp [decode_eq, h]

theorem decode_stop_of_opcode {b0 : Byte} (b1 : Byte) (h : b0.toNat / 16 = 15) :
    decode b0 b1 = .instr .stop := by
  simp [decode_eq, h]

/-- Settles O23: the decoder takes apart the nibbles the encoder puts together. -/
theorem decodeUndoesEncode : Obligations.DecodeUndoesEncode := by
  intro i
  cases i with
  | jumpz a => exact decode_eq 0x20 a
  | stop => rfl
  | _ => simp [encode, decode]

/-- Settles O24: an encoding is canonical by its row; conversely the decoded fields and the canonical unused
bits together are the whole word. -/
theorem encodeUndoesDecodeOnCanonicalWords : Obligations.EncodeUndoesDecodeOnCanonicalWords := by
  intro b0 b1 i hd
  refine ⟨fun he => ?_, encode_of_decode_of_canonical hd⟩
  simpa [he] using encode_agrees_with_canonMask i

/-- Settles O26: the decoder's equation at each value of the opcode, its nibbles read as numbers. -/
theorem decoderReadsTheFields : Obligations.DecoderReadsTheFields := by
  intro b0 b1
  refine ⟨?_, ?_, ?_, ?_, ?_, ?_, ?_, ?_, ?_, decode_illegal_of_opcode b1, ?_⟩
  all_goals
    intro h
    simp only [decode_eq, h, loNibble_eq, hiNibble_eq]

/-- Settles O27: eleven closed words. -/
theorem writtenOutWordsDecode : Obligations.WrittenOutWordsDecode := by
  unfold Obligations.WrittenOutWordsDecode
  decide

end Sys2Proof
end

section
/-! PROOFS. What an instruction's own effect changes and leaves, and the machine's whole invariant
(10_state section 5, 60_exceptions section 2). -/

namespace Sys2Proof.Machine

/-! ### An instruction's own effect -/

theorem exec_next {i : Instr} {s t : State} (h : exec i s = .next t) :
    t = (effect i s).complete s.pc := by
  rw [exec_eq] at h
  cases h
  rfl

@[simp] theorem effect_fault (i : Instr) (s : State) : (effect i s).fault = s.fault := by
  cases i <;> simp [effect]

theorem effect_status {i : Instr} (h : i ≠ .stop) (s : State) : (effect i s).status = s.status := by
  cases i <;> simp_all [effect]

/-- Only a STORE writes memory (20_memory section 1). -/
theorem effect_mem {i : Instr} (h : ∀ ra a, i ≠ .store ra a) (s : State) : (effect i s).mem = s.mem := by
  cases i <;> simp_all [effect]

/-- Only the destination register is written (10_state R12). -/
theorem effect_readReg {i : Instr} {r : RegIx} (h : destReg i ≠ some r) (s : State) :
    (effect i s).readReg r = s.readReg r := by
  have hne : ∀ {ra : RegIx}, some ra ≠ some r → r ≠ ra := fun h e => h (e ▸ rfl)
  cases i with
  | store _ _ | jumpz _ | stop => simp [effect]
  | _ => simp [effect, readReg_writeReg, hne h]

/-- An instruction is a taken JUMPZ, or leaves `pc` and `jumped` alone. -/
theorem effect_jump_cases (i : Instr) (s : State) :
    (∃ a, i = .jumpz a ∧ s.lastResult = 0 ∧ effect i s = (s.setPc a).markJumped) ∨
    ((∀ a, i = .jumpz a → s.lastResult ≠ 0) ∧ (effect i s).pc = s.pc ∧
      (effect i s).jumped = s.jumped) := by
  cases i with
  | jumpz a =>
    rcases jumpIfZero_cases s a with ⟨hz, h⟩ | ⟨hz, h⟩
    · exact .inl ⟨a, rfl, hz, h⟩
    · exact .inr ⟨fun _ _ => hz, congrArg State.pc h, congrArg State.jumped h⟩
  | _ => exact .inr ⟨fun _ h => Instr.noConfusion h, rfl, rfl⟩

theorem effect_mem_wf (i : Instr) {s : State} (h : Memory.wf s.mem = true) :
    Memory.wf (effect i s).mem = true := by
  cases i with
  | store ra a => exact memWrite_wf s a _ h
  | _ => rwa [effect_mem (by simp)]

/-- In the state a Step hands to a meaning, the effect leaves what the transients say true (R18, R19). -/
theorem effect_transientInv (i : Instr) {s : State} (hx : s.Executing) : (effect i s).TransientInv := by
  obtain ⟨hr, hj, hc⟩ := hx
  cases i with
  | loadm ra a => exact ⟨by simp [effect, hj], fun x h => by cases h; simp [effect]⟩
  | store ra a => exact ⟨by simp [effect, hj], fun x h => by cases h; simp [effect, memRead_memWrite]⟩
  | jumpz a =>
    rcases jumpIfZero_cases s a with ⟨hz, h⟩ | ⟨_, h⟩
    · exact ⟨by simp [effect, h, hr, hc, hz], by simp [effect, hc]⟩
    · exact ⟨by simp [effect, h, hj], by simp [effect, hc]⟩
  | _ => exact ⟨by simp [effect, hj], by simp [effect, hc]⟩

/-! ### The invariant of a running, a halted and a faulted state -/

theorem beginStep_transientInv (s : State) : s.beginStep.TransientInv :=
  ⟨by simp, by simp⟩

theorem setPc_transientInv {s : State} (h : s.TransientInv) (p : Byte) : (s.setPc p).TransientInv := h

/-- A running machine without a fault record stands on nothing, so only its memory and transients matter. -/
theorem coherent_of_running {s : State} (hwf : Memory.wf s.mem = true) (hr : s.status = .running)
    (hf : s.fault = none) (ht : s.TransientInv) : s.Coherent :=
  ⟨⟨hwf, by simp [State.RecordInv, hr, hf]⟩, ht, by simp [hr], by simp [hf], by simp [hf]⟩

/-- A machine halts coherently where a STOP stands. -/
theorem halt_coherent {s : State} (hwf : Memory.wf s.mem = true) (hx : s.Executing)
    (hf : s.fault = none) (hstop : hiNibble (s.memRead s.pc) = 0xF) : s.halt.Coherent := by
  obtain ⟨_, hj, hc⟩ := hx
  exact ⟨⟨hwf, by simp [State.RecordInv, hf]⟩, ⟨by simp [hj], by simp [hc]⟩,
    fun _ => ⟨hstop, hc⟩, by simp [hf], by simp [hf]⟩

/-- The record says what stands at `pc`, as `State.StopInv` asks of it. -/
def State.RecordFits (s : State) : Fault → Prop
  | .illegalOpcode p op =>
    p = s.pc ∧ hiNibble (s.memRead s.pc) = op ∧ 9 ≤ op.toNat ∧ op.toNat ≤ 14
  | .pcOutOfRange p => p = s.pc ∧ 254 ≤ p.toNat ∧ s.params.pcTop = .fault

/-- Fault entry with a record that fits is coherent. -/
theorem raise_coherent {s : State} {f : Fault} (hwf : Memory.wf s.mem = true) (hj : s.jumped = false)
    (ht : s.TransientInv) (hfits : s.RecordFits f) : (s.raise f).Coherent := by
  refine ⟨⟨hwf, by simp [State.RecordInv]⟩, ⟨by simp [hj], ht.2⟩, by simp, ?_, ?_⟩
  · rintro p op h
    cases h
    exact hfits
  · rintro p h
    cases h
    exact hfits

theorem running_fault_eq_none {s : State} (h : s.RecordInv) (hr : s.status = .running) :
    s.fault = none := by
  have hnot : ¬ s.fault.isSome = true := fun hs => by simp [h.1 hs] at hr
  simpa using hnot

/-! ### A Step keeps the invariant -/

theorem stop_holds_opcode {s : State} (h : decode (s.memRead s.pc) s.operandByte = .instr .stop) :
    hiNibble (s.memRead s.pc) = 0xF := by
  have hop : s.opcode = 15 := decode_holds h
  rw [hiNibble_eq]
  exact congrArg (BitVec.ofNat 4) hop

/-- The end of a Step that executed `i` keeps the invariant, in each way the Step can end. -/
theorem executed_coherent {s : State} {i : Instr} (h : s.HostInv) (hr : s.status = .running)
    (hd : decode (s.memRead s.pc) s.operandByte = .instr i) :
    ((effect i s.beginStep).complete s.pc).Coherent := by
  obtain ⟨hwf, hrec⟩ := h
  have hx : s.beginStep.Executing := beginStep_executing hr
  have hf : s.beginStep.fault = none := running_fault_eq_none hrec hr
  have hwf' : Memory.wf (effect i s.beginStep).mem = true := effect_mem_wf i hwf
  have ht : (effect i s.beginStep).TransientInv := effect_transientInv i hx
  have hf' : (effect i s.beginStep).fault = none := (effect_fault i _).trans hf
  rcases complete_cases (effect i s.beginStep) s.pc with
    ⟨heq, hend⟩ | ⟨heq, hrun, -⟩ | ⟨heq, -, hj, htop, hpol⟩ <;> rw [heq]
  · by_cases hi : i = .stop
    · subst hi
      exact halt_coherent hwf hx hf (stop_holds_opcode hd)
    · exact coherent_of_running hwf' ((effect_status hi _).trans hr) hf' ht
  · exact coherent_of_running hwf' hrun hf' (setPc_transientInv ht _)
  · have hpc : (effect i s.beginStep).pc = s.pc := by
      rcases effect_jump_cases i s.beginStep with ⟨a, -, -, he⟩ | ⟨-, hpc, -⟩
      · simp [he] at hj
      · exact hpc
    exact raise_coherent hwf' hj ht ⟨hpc.symm, htop, hpol⟩

end Sys2Proof.Machine

namespace Sys2Proof
open Sys2Proof.Machine

/-- Settles O38: a Step does nothing, raises a fault that fits the state, or executes an instruction. -/
theorem stepKeepsCoherence : Obligations.StepKeepsCoherence := by
  intro s t h hstep
  have hhost : s.HostInv := h.1
  have hwf : Memory.wf s.mem = true := hhost.1
  rcases step_outcomes hstep with
    ⟨-, rfl⟩ | ⟨-, hpc, hpol, rfl⟩ | ⟨-, -, h9, h14, rfl⟩ | ⟨hr, -, i, hd, rfl⟩
  · exact h
  · exact raise_coherent hwf rfl (beginStep_transientInv s) ⟨rfl, by simp [hpc], hpol⟩
  · have hop : (hiNibble (s.memRead s.pc)).toNat = s.opcode := hiNibble_toNat _
    exact raise_coherent hwf rfl (beginStep_transientInv s)
      ⟨rfl, rfl, hop.symm ▸ h9, hop.symm ▸ h14⟩
  · exact executed_coherent hhost hr hd

/-- Settles O39: the machine runs after Reset, and a filled memory is in canonical form. -/
theorem resetIsCoherent : Obligations.ResetIsCoherent := by
  intro p
  exact coherent_of_running (fill_wf p.resetMem) rfl rfl ⟨by simp [State.init], by simp [State.init]⟩

end Sys2Proof
end

section
/-! PROOFS. The frames of the instructions (41_memory_and_move, 42_arithmetic, 43_control) and the advance past the
top of memory (40_execution_cycle section 2). -/

namespace Sys2Proof.Machine

/-! ### What the end of a Step keeps -/

/-- The end of a Step leaves `status` and `fault`, or enters the top-of-memory fault (R82 (b), R131). -/
theorem complete_controlKept {s u : State} (hst : u.status = s.status) (hf : u.fault = s.fault)
    (hp : u.params = s.params) : ControlKeptOrTopFault s (u.complete s.pc) := by
  rcases complete_cases u s.pc with ⟨h, -⟩ | ⟨h, -, -⟩ | ⟨h, -, -, htop, hpol⟩ <;> rw [h]
  · exact .inl ⟨hst, hf⟩
  · exact .inl ⟨hst, hf⟩
  · exact .inr ⟨rfl, rfl, htop, hp ▸ hpol⟩

/-- The control of a machine that executed an instruction other than STOP. -/
theorem exec_controlKept {i : Instr} (hi : i ≠ .stop) (s : State) :
    ControlKeptOrTopFault s ((effect i s).complete s.pc) :=
  complete_controlKept (effect_status hi s) (effect_fault i s) (effect_params i s)

/-- The same machine under other open parameters. -/
def State.withParams (s : State) (p : Params) : State := { s with params := p }

/-- No instruction reads the parameters, so its effect is the same under every policy. -/
theorem effect_withParams (i : Instr) (s : State) (p : Params) :
    effect i (s.withParams p) = (effect i s).withParams p := by
  cases i with
  | jumpz a =>
    rcases jumpIfZero_cases s a with ⟨hz, h⟩ | ⟨hz, h⟩
    · rw [effect, effect, h, jumpIfZero_taken (s := s.withParams p) hz]
      rfl
    · rw [effect, effect, h, jumpIfZero_notTaken (s := s.withParams p) hz]
  | _ => rfl

/-- Fault entry differs from an advance under other parameters in those, `pc`, `status` and `fault` only. -/
theorem raise_eq_advance_with_fault (u : State) (p : Params) (q : Byte) (f : Fault) :
    u.raise f = { (u.withParams p).setPc q with
      params := u.params, pc := u.pc, status := .faulted, fault := some f } := rfl

end Sys2Proof.Machine

namespace Sys2Proof
open Sys2Proof.Machine

/-- Settles O13: an instruction with a destination is no STORE, JUMPZ or STOP, and the end of the Step
keeps the rest. -/
theorem frameOfTheRegisterWriters : Obligations.FrameOfTheRegisterWriters := by
  intro i ra s t hdest hexec
  obtain rfl := exec_next hexec
  have hstop : i ≠ .stop := by rintro rfl; cases hdest
  have hmem : (effect i s).mem = s.mem := effect_mem (by rintro _ _ rfl; cases hdest) s
  have hjumped : (effect i s).jumped = s.jumped := by
    rcases effect_jump_cases i s with ⟨a, rfl, -, -⟩ | ⟨-, -, h⟩
    · cases hdest
    · exact h
  refine ⟨fun r hr => ?_, fun a => ?_, by simp [hjumped], by simp [effect_params], exec_controlKept hstop s,
    fun hload => ?_, ?_⟩
  · rw [complete_readReg]
    exact effect_readReg (by simpa [hdest] using hr.symm) s
  · simp [State.memRead, hmem]
  · rw [complete_curMem]
    cases i with
    | loadm rb a => cases hdest; exact absurd rfl (hload a)
    | store _ _ => cases hdest
    | jumpz _ => cases hdest
    | _ => rfl
  · rintro ⟨rb, rfl⟩
    simp [effect]

/-- Settles O14. -/
theorem frameOfStore : Obligations.FrameOfStore := by
  intro ra addr8 s t hexec
  obtain rfl := exec_next hexec
  refine ⟨fun r => by simp [effect], fun a ha => ?_, by simp [effect], by simp [effect],
    exec_controlKept (by simp) s⟩
  have hother : a ≠ addr8 := ha
  simp [effect, memRead_memWrite, hother]

/-- Settles O15: JUMPZ's own effect is on `pc` and `jumped` alone, and STOP is not followed by an advance. -/
theorem frameOfControl : Obligations.FrameOfControl := by
  constructor
  · intro a s t hexec
    obtain rfl := exec_next hexec
    exact ⟨fun r => by simp [effect], fun x => by simp [effect], by simp [effect], by simp [effect],
      by simp [effect], exec_controlKept (by simp) s,
      fun hz => by simp [effect, jumpIfZero_notTaken hz]⟩
  · intro s t hexec
    obtain rfl := exec_next hexec
    have hend : (effect .stop s).complete s.pc = s.halt := complete_stopped (by simp [effect])
    rw [hend]
    exact ⟨fun _ => rfl, fun _ => rfl, rfl, rfl, rfl, rfl, rfl, rfl⟩

/-- Settles O16: the effect is the same under both policies, and only the end of the Step tells them apart. -/
theorem advancePastTheTopFaults : Obligations.AdvancePastTheTopFaults := by
  intro i s hx htop hpol hstop hjump
  obtain ⟨hr, hj, -⟩ := hx
  rcases effect_jump_cases i s with ⟨a, hi, hz, -⟩ | ⟨-, hpc, hjumped⟩
  · exact absurd hz (hjump a hi)
  have hr' : (effect i s).status = .running := (effect_status hstop s).trans hr
  have hj' : (effect i s).jumped = false := hjumped.trans hj
  have hparams := effect_params i s
  have hfault : exec i s = .next ((effect i s).raise (.pcOutOfRange s.pc)) := by
    rw [exec_eq, complete_faults hr' hj' htop (hparams ▸ hpol)]
  have hwrap (p : Params) (hp : p.pcTop = .wrap) :
      exec i (s.withParams p) = .next (((effect i s).withParams p).setPc (s.pc + 2)) := by
    rw [exec_eq, effect_withParams]
    exact congrArg _ (complete_advances hr' hj' (.inr hp))
  refine ⟨_, hwrap { s.params with pcTop := .wrap } rfl, ?_⟩
  rw [hfault, raise_eq_advance_with_fault _ { s.params with pcTop := .wrap } (s.pc + 2), hparams, hpc]

end Sys2Proof
end

section
/-! PROOFS. The statements about a Step and about runs of Steps (40_execution_cycle, 60_exceptions, 10_state,
20_memory, 43_control). -/

namespace Sys2Proof.Machine

/-! ### What an executed instruction changed -/

theorem destReg_of_effect_readReg_ne {i : Instr} {s : State} {r : RegIx}
    (h : (effect i s).readReg r ≠ s.readReg r) : destReg i = some r :=
  not_not.1 fun hd => h (effect_readReg hd s)

theorem store_of_effect_memRead_ne {i : Instr} {s : State} {a : Byte}
    (h : (effect i s).memRead a ≠ s.memRead a) :
    ∃ ra, i = .store ra a ∧ (effect i s).memRead a = s.readReg ra := by
  cases i with
  | store ra b =>
    by_cases hab : a = b
    · exact ⟨ra, by rw [hab], by simp [effect, memRead_memWrite, hab]⟩
    · exact absurd (by simp [effect, memRead_memWrite, hab]) h
  | _ => exact absurd (congrArg (Memory.readCell · a.toNat) (effect_mem (by simp) s)) h

/-- The register an instruction writes is the `ra` field of the byte it was fetched from (R12, R56). -/
theorem destReg_holds {s : State} {i : Instr} {r : RegIx} (hh : s.Holds i) (hd : destReg i = some r) :
    r = s.raField ∧ s.opcode ∈ [0, 3, 4, 5, 6, 7, 8] := by
  cases i <;> cases hd <;> simp_all [State.Holds]

/-- The seven writers of `last_result` and what each leaves in it (R16, D8, D9, D23). -/
theorem effect_lastResult_writers {s : State} {i : Instr} (hh : s.Holds i)
    (hne : (effect i s.beginStep).lastResult ≠ s.lastResult) :
    (s.opcode ∈ [0, 3, 4, 5, 6, 7] ∧
      (effect i s.beginStep).lastResult = (effect i s.beginStep).readReg s.raField) ∨
    (s.opcode = 1 ∧ (effect i s.beginStep).lastResult = (effect i s.beginStep).memRead s.operandByte) := by
  cases i with
  | store ra a =>
    obtain ⟨hop, rfl, rfl⟩ := hh
    exact .inr ⟨hop, by simp [effect, memRead_memWrite]⟩
  | jumpz _ => exact absurd (by simp [effect]) hne
  | copy _ _ => exact absurd (by simp [effect]) hne
  | stop => exact absurd (by simp [effect]) hne
  | _ =>
    obtain ⟨rfl, hop⟩ := destReg_holds hh rfl
    exact .inl ⟨by simp_all [State.Holds], by simp [effect, readReg_writeReg]⟩

/-- A Step that ends halted, from a running machine, executed STOP (R17). -/
theorem stop_of_complete_halted {i : Instr} {s : State} {pc0 : Byte} (hr : s.status = .running)
    (hh : ((effect i s).complete pc0).status = .halted) : i = .stop := by
  by_contra hi
  have hst : (effect i s).status = .running := (effect_status hi s).trans hr
  rcases complete_cases (effect i s) pc0 with ⟨h, -⟩ | ⟨h, -, -⟩ | ⟨h, -⟩ <;> simp [h, hst] at hh

theorem stop_complete {s : State} (pc0 : Byte) : (effect .stop s).complete pc0 = s.halt :=
  complete_stopped (by simp [effect])

/-- An executed Step that ends faulted ran past the top of memory (R82 (b)). -/
theorem top_of_complete_faulted {i : Instr} {s : State} {pc0 : Byte} (hr : s.status = .running)
    (hf : ((effect i s).complete pc0).status = .faulted) :
    254 ≤ pc0.toNat ∧ s.params.pcTop = .fault ∧
      ((effect i s).complete pc0).fault = some (.pcOutOfRange pc0) := by
  rcases complete_cases (effect i s) pc0 with ⟨h, -⟩ | ⟨h, hst, -⟩ | ⟨h, -, -, htop, hpol⟩
  · by_cases hi : i = .stop
    · simp [hi, stop_complete] at hf
    · simp [h, effect_status hi, hr] at hf
  · simp [h, hst] at hf
  · exact ⟨htop, effect_params i s ▸ hpol, by simp [h]⟩

/-- Where `pc` stands after an executed Step (R98). -/
theorem executed_pc_cases (i : Instr) (s : State) :
    ((effect i s).complete s.pc).pc = s.pc ∨ ((effect i s).complete s.pc).pc = s.pc + 2 ∨
      ∃ a, i = .jumpz a ∧ s.lastResult = 0 ∧ ((effect i s).complete s.pc).jumped = true ∧
        ((effect i s).complete s.pc).pc = a := by
  rcases effect_jump_cases i s with ⟨a, hi, hz, he⟩ | ⟨-, hpc, -⟩
  · have hend : (effect i s).complete s.pc = (s.setPc a).markJumped := by
      rw [he]
      exact complete_jumped rfl
    exact .inr (.inr ⟨a, hi, hz, by rw [hend]; rfl, by rw [hend]; rfl⟩)
  · rcases complete_pc (effect i s) s.pc with h | h
    · exact .inl (h.trans hpc)
    · exact .inr (.inl h)

/-- A Step executes the decoded instruction, or changes nothing but the transients, `status` and `fault`. -/
theorem step_executes_or_keeps {s t : State} (h : step s = .next t) :
    (t.regs = s.regs ∧ t.mem = s.mem ∧ t.lastResult = s.lastResult ∧ t.pc = s.pc ∧ t.params = s.params) ∨
    (s.status = .running ∧ ∃ i, decode (s.memRead s.pc) s.operandByte = .instr i ∧
      t = (effect i s.beginStep).complete s.pc) := by
  rcases step_outcomes h with
    ⟨-, rfl⟩ | ⟨-, -, -, rfl⟩ | ⟨-, -, -, -, rfl⟩ | ⟨hr, -, i, hd, ht⟩
  · exact .inl ⟨rfl, rfl, rfl, rfl, rfl⟩
  · exact .inl ⟨rfl, rfl, rfl, rfl, rfl⟩
  · exact .inl ⟨rfl, rfl, rfl, rfl, rfl⟩
  · exact .inr ⟨hr, i, hd, ht⟩

/-! ### Fetches -/

theorem opcode_eq_hiNibble (s : State) :
    hiNibble (s.memRead s.pc) = BitVec.ofNat 4 s.opcode := hiNibble_eq _

/-- A Step executes what the two bytes at `pc` decode to. -/
theorem step_of_decode {s : State} {i : Instr} (hr : s.status = .running) (hf : s.Fetches)
    (hd : decode (s.memRead s.pc) s.operandByte = .instr i) : step s = exec i s.beginStep :=
  step_of_ok hr (fetchDecode_instr (s := s.beginStep) hf hd)

/-- The Step of a machine that stands on a taken JUMPZ. -/
theorem step_taken_jump {s : State} (hr : s.status = .running) (hf : s.Fetches) (hop : s.opcode = 2)
    (hz : s.lastResult = 0) : step s = .next (s.beginStep.setPc s.operandByte).markJumped := by
  have hd : decode (s.memRead s.pc) s.operandByte = .instr (.jumpz s.operandByte) :=
    decode_jumpz_of_opcode _ hop
  rw [step_of_decode hr hf hd, exec_eq, effect, jumpIfZero_taken (s := s.beginStep) hz]
  exact congrArg _ (complete_jumped rfl)

/-- The Step of a machine that stands on a STOP. -/
theorem step_stop {s : State} (hr : s.status = .running) (hf : s.Fetches) (hop : s.opcode = 15) :
    step s = .next s.beginStep.halt := by
  have hd : decode (s.memRead s.pc) s.operandByte = .instr .stop :=
    decode_stop_of_opcode _ hop
  rw [step_of_decode hr hf hd, exec_eq, stop_complete]

end Sys2Proof.Machine

namespace Sys2Proof
open Sys2Proof.Machine

/-! ### One Step -/

/-- Settles O17. -/
theorem fetchAtTheTopFaults : Obligations.FetchAtTheTopFaults := by
  intro s hr hpc hpol
  have hfetch := fetchDecode_top (s := s.beginStep) hpc hpol
  rw [beginStep_pc, hpc] at hfetch
  rw [step_of_error hr hfetch]
  rfl

/-- Settles O18. -/
theorem illegalOpcodeFaultsPrecisely : Obligations.IllegalOpcodeFaultsPrecisely := by
  intro s hr hf h9 h14
  have hd := decode_illegal_of_opcode s.operandByte h9 h14
  rw [step_of_error hr (fetchDecode_illegal (s := s.beginStep) hf hd)]
  rfl

/-- Settles O19. -/
theorem stepRunsTheDecodedInstruction : Obligations.StepRunsTheDecodedInstruction := by
  intro s i hr hf hd
  exact step_of_decode hr hf hd

/-- Settles O34: the Step starts from the same state, whatever the transients were. -/
theorem transientsDoNotAffectExecution : Obligations.TransientsDoNotAffectExecution := by
  intro s j c hr
  have hbegin : ({ s with jumped := j, curMem := c } : State).beginStep = s.beginStep := rfl
  cases hf : s.beginStep.fetchDecode with
  | ok i => rw [step_of_ok hr hf, step_of_ok (s := { s with jumped := j, curMem := c }) hr hf, hbegin]
  | error f => rw [step_of_error hr hf, step_of_error (s := { s with jumped := j, curMem := c }) hr hf, hbegin]

/-- Settles O22: of the ways a Step can end, the two faults of a fetch and the end past the top are faulted. -/
theorem nothingElseFaults : Obligations.NothingElseFaults := by
  intro s t hstep hfaulted
  rcases step_outcomes hstep with
    ⟨-, rfl⟩ | ⟨hr, hpc, hpol, rfl⟩ | ⟨hr, -, h9, h14, rfl⟩ | ⟨hr, -, i, -, rfl⟩
  · exact .inl hfaulted
  · exact .inr ⟨hr, .inl ⟨by simp [hpc], hpol, rfl⟩⟩
  · exact .inr ⟨hr, .inr ⟨h9, h14, by rw [raise_fault, opcode_eq_hiNibble]⟩⟩
  · obtain ⟨htop, hpol, hrec⟩ := top_of_complete_faulted (s := s.beginStep) hr hfaulted
    exact .inr ⟨hr, .inl ⟨htop, hpol, hrec⟩⟩

/-- Settles O28. -/
theorem onlyStoreWritesMemory : Obligations.OnlyStoreWritesMemory := by
  intro s t a hstep hne
  rcases step_executes_or_keeps hstep with ⟨-, hmem, -⟩ | ⟨hr, i, hd, rfl⟩
  · exact absurd (congrArg (Memory.readCell · a.toNat) hmem) hne
  · rw [complete_memRead] at hne ⊢
    obtain ⟨ra, rfl, hval⟩ := store_of_effect_memRead_ne (s := s.beginStep) hne
    obtain ⟨hop, hra, haddr⟩ : s.Holds (.store ra a) := decode_holds hd
    exact ⟨hr, hop, haddr, hra ▸ hval⟩

/-- Settles O29. -/
theorem onlyTheDestinationRegisterIsWritten : Obligations.OnlyTheDestinationRegisterIsWritten := by
  intro s t r hstep hne
  rcases step_executes_or_keeps hstep with ⟨hregs, -⟩ | ⟨hr, i, hd, rfl⟩
  · exact absurd (by rw [State.readReg, State.readReg, hregs]) hne
  · rw [complete_readReg] at hne
    exact ⟨hr, destReg_holds (decode_holds hd) (destReg_of_effect_readReg_ne (s := s.beginStep) hne)⟩

/-- Settles O30. -/
theorem onlyJumpzWritesPcOtherThanByTwo : Obligations.OnlyJumpzWritesPcOtherThanByTwo := by
  intro s t hstep
  rcases step_executes_or_keeps hstep with ⟨-, -, -, hpc, -⟩ | ⟨hr, i, hd, rfl⟩
  · exact .inl hpc
  · rcases executed_pc_cases i s.beginStep with hpc | hpc | ⟨a, rfl, hz, hj, hpc⟩
    · exact .inl hpc
    · exact .inr (.inl (hpc ▸ add_two_toNat s.pc))
    · obtain ⟨hop, haddr⟩ : s.Holds (.jumpz a) := decode_holds hd
      exact .inr (.inr ⟨hr, hop, hz, hj, haddr ▸ hpc⟩)

/-- Settles O37: of the three ways of `pc`, only the taken jump, which sets `jumped`, can change the parity. -/
theorem parityOfPcChangesOnlyByAJump : Obligations.ParityOfPcChangesOnlyByAJump := by
  intro s t hstep hj
  rcases onlyJumpzWritesPcOtherThanByTwo s t hstep with h | h | ⟨-, -, -, hjumped, -⟩
  · rw [h]
  · omega
  · simp [hj] at hjumped

/-- Settles O31. -/
theorem onlyStopHalts : Obligations.OnlyStopHalts := by
  intro s t hstep hhalted hnot
  rcases step_outcomes hstep with
    ⟨-, rfl⟩ | ⟨-, -, -, rfl⟩ | ⟨-, -, -, -, rfl⟩ | ⟨hr, -, i, hd, rfl⟩
  · exact absurd hhalted hnot
  · cases hhalted
  · cases hhalted
  · obtain rfl := stop_of_complete_halted (s := s.beginStep) hr hhalted
    exact ⟨hr, decode_holds hd, by rw [stop_complete]; rfl⟩

/-- Settles O32: the transients are cleared first, and only a taken JUMPZ sets `jumped` again. -/
theorem jumpedExactlyAfterATakenJumpz : Obligations.JumpedExactlyAfterATakenJumpz := by
  intro s t hr hstep
  constructor
  · intro hj
    rcases step_outcomes hstep with
      ⟨hstopped, -⟩ | ⟨-, -, -, rfl⟩ | ⟨-, -, -, -, rfl⟩ | ⟨-, hf, i, hd, rfl⟩
    · exact absurd hr hstopped
    · cases hj
    · cases hj
    · rw [complete_jumpedFlag] at hj
      rcases effect_jump_cases i s.beginStep with ⟨a, rfl, hz, -⟩ | ⟨-, -, h⟩
      · obtain ⟨hop, -⟩ : s.Holds (.jumpz a) := decode_holds hd
        exact ⟨hf, hop, hz⟩
      · cases h.symm.trans hj
  · rintro ⟨hf, hop, hz⟩
    rw [step_taken_jump hr hf hop hz] at hstep
    cases hstep
    rfl

/-- Settles O33. -/
theorem lastResultHasSevenWriters : Obligations.LastResultHasSevenWriters := by
  intro s t hstep hne
  rcases step_executes_or_keeps hstep with ⟨-, -, hlast, -⟩ | ⟨hr, i, hd, rfl⟩
  · exact absurd hlast hne
  · simp only [complete_lastResult, complete_readReg, complete_memRead] at hne ⊢
    exact ⟨hr, effect_lastResult_writers (decode_holds hd) hne⟩

/-! ### Runs -/

/-- Settles O20, by induction on the number of Steps. -/
theorem stoppedMachineNeverChanges : Obligations.StoppedMachineNeverChanges := by
  intro k s hstopped
  induction k with
  | zero => rfl
  | succ k ih => rw [run_succ (step_stopped hstopped), ih]

/-- Settles O21, by induction on the number of Steps. -/
theorem everyRunAnswersAState : Obligations.EveryRunAnswersAState := by
  intro k s
  induction k generalizing s with
  | zero => exact ⟨s, rfl⟩
  | succ k ih =>
    obtain ⟨t, hstep⟩ := step_next s
    rw [run_succ hstep]
    exact ih t

/-- Settles O35: the STORE puts 0xF0 where the next fetch reads its opcode, and 0xF0 is a STOP whatever follows. -/
theorem storeIntoTheNextInstructionIsFetched : Obligations.StoreIntoTheNextInstructionIsFetched := by
  intro s ra hr hpc hreg hfirst hsecond
  have hd : decode (s.memRead s.pc) s.operandByte = .instr (.store ra (s.pc + 2)) := by
    rw [hfirst, hsecond]
    exact decodeUndoesEncode (.store ra (s.pc + 2))
  let u := effect (.store ra (s.pc + 2)) s.beginStep
  have hstore : step s = .next (u.setPc (s.pc + 2)) := by
    rw [step_of_decode hr (.inl (by omega)) hd, exec_eq]
    exact congrArg _ (complete_advances hr rfl (.inl (by simp; omega)))
  have hnext : (u.setPc (s.pc + 2)).memRead (s.pc + 2) = 0xF0 := by
    simpa [u, effect, memRead_memWrite] using hreg
  have hstop : step (u.setPc (s.pc + 2)) = .next (u.setPc (s.pc + 2)).beginStep.halt := by
    refine step_stop hr (.inl ?_) (by rw [State.opcode, setPc_pc, hnext]; rfl)
    rw [setPc_pc, add_two_toNat]
    omega
  refine ⟨(u.setPc (s.pc + 2)).beginStep.halt, ?_, rfl, rfl⟩
  rw [run_succ hstore, run_succ hstop, run_zero]

/-- Settles O36, by induction on the number of Steps: the state after the jump meets the same conditions. -/
theorem jumpToItselfNeverEnds : Obligations.JumpToItselfNeverEnds := by
  intro k
  induction k with
  | zero =>
    intro s hr _ _ _ hz
    exact ⟨s, rfl, hr, rfl, hz, fun _ => rfl, fun _ => rfl⟩
  | succ k ih =>
    intro s hr hf hop hself hz
    have hstep := step_taken_jump hr hf hop hz
    rw [hself] at hstep
    rw [run_succ hstep]
    exact ih (s.beginStep.setPc s.pc).markJumped hr hf hop hself hz

end Sys2Proof
end

section
/-! PROOFS. The statements about lines, line forms and the disassembly (50_assembler sections 2 and 3,
30_encoding section 4). -/

namespace Sys2Proof.Machine

/-! ### Lines joined and split (R101) -/

theorem splitLines_cons_plain {c : Char} (hlf : c ≠ '\n') (hcr : c ≠ '\r') {t l : Text}
    {ls : List Text} (h : splitLines t = l :: ls) : splitLines (c :: t) = (c :: l) :: ls := by
  rw [splitLines, if_neg hlf, if_neg (fun hc => hcr hc.1), h]

/-- A line without CR or LF, before what starts with the end of a line. -/
theorem splitLines_line_append {l t : Text} {ls : List Text} (hl : '\n' ∉ l ∧ '\r' ∉ l)
    (h : splitLines t = [] :: ls) : splitLines (l ++ t) = l :: ls := by
  induction l with
  | nil => exact h
  | cons c l ih =>
    simp only [List.mem_cons, not_or] at hl
    obtain ⟨⟨hlf, hlf'⟩, hcr, hcr'⟩ := hl
    exact splitLines_cons_plain (Ne.symm hlf) (Ne.symm hcr) (ih ⟨hlf', hcr'⟩)

/-- Lines joined by any terminator are split back. -/
theorem splitLines_intercalate {sep : Text}
    (hsep : ∀ rest : Text, splitLines (sep ++ rest) = [] :: splitLines rest) {lines : List Text}
    (hne : lines ≠ []) (h : ∀ l ∈ lines, '\n' ∉ l ∧ '\r' ∉ l) :
    splitLines (List.intercalate sep lines) = lines := by
  induction lines with
  | nil => exact absurd rfl hne
  | cons l lines ih =>
    have hl := h l (by simp)
    cases lines with
    | nil => simpa using splitLines_line_append (t := []) hl rfl
    | cons m lines =>
      have hrest := ih (by simp) fun x hx => h x (by simp [hx])
      rw [List.intercalate_cons_cons, List.append_assoc, splitLines_line_append hl (hsep _), hrest]

/-! ### What each form accepts (R103) -/

theorem formRegByte_some {kw : Text} {mk : RegIx → Byte → Instr} {ws : List Text} {form : SourceForm}
    (h : formRegByte kw mk ws = some form) :
    (∃ r b, ws = [kw, r, b]) ∧ ∃ x v, form = .instr (mk x v) := by
  unfold formRegByte at h
  split at h
  · next k r b =>
    split at h
    · next hk =>
      subst hk
      split at h
      · cases h; exact ⟨⟨_, _, rfl⟩, _, _, rfl⟩
      · cases h
    · cases h
  · cases h

theorem formRegRegReg_some {kw : Text} {mk : RegIx → RegIx → RegIx → Instr} {ws : List Text}
    {form : SourceForm} (h : formRegRegReg kw mk ws = some form) :
    (∃ r1 r2 r3, ws = [kw, r1, r2, r3]) ∧ ∃ x y z, form = .instr (mk x y z) := by
  unfold formRegRegReg at h
  split at h
  · next k r1 r2 r3 =>
    split at h
    · next hk =>
      subst hk
      split at h
      · cases h; exact ⟨⟨_, _, _, rfl⟩, _, _, _, rfl⟩
      · cases h
    · cases h
  · cases h

theorem formReg_some {kw : Text} {mk : RegIx → Instr} {ws : List Text} {form : SourceForm}
    (h : formReg kw mk ws = some form) : (∃ r, ws = [kw, r]) ∧ ∃ x, form = .instr (mk x) := by
  unfold formReg at h
  split at h
  · next k r =>
    split at h
    · next hk =>
      obtain ⟨x, -, rfl⟩ := Option.map_eq_some_iff.1 h
      exact ⟨⟨r, by rw [hk]⟩, x, rfl⟩
    · cases h
  · cases h

theorem formRegReg_some {kw : Text} {mk : RegIx → RegIx → Instr} {ws : List Text} {form : SourceForm}
    (h : formRegReg kw mk ws = some form) :
    (∃ r1 r2, ws = [kw, r1, r2]) ∧ ∃ x y, form = .instr (mk x y) := by
  unfold formRegReg at h
  split at h
  · next k r1 r2 =>
    split at h
    · next hk =>
      subst hk
      split at h
      · cases h; exact ⟨⟨_, _, rfl⟩, _, _, rfl⟩
      · cases h
    · cases h
  · cases h

theorem nameToken_some {t name : Text} (h : nameToken t = some name) : isName name = true := by
  unfold nameToken at h
  split at h
  · next hn => cases h; exact hn
  · cases h

theorem declToken_some {t name : Text} (h : declToken t = some name) : isName name = true := by
  unfold declToken at h
  split at h
  · exact nameToken_some h
  · cases h

theorem formJump_some {kw : Text} {ws : List Text} {form : SourceForm} (h : formJump kw ws = some form) :
    (∃ n, ws = [kw, n]) ∧ ∃ name, form = .jump name ∧ isName name = true := by
  unfold formJump at h
  split at h
  · next k n =>
    split at h
    · next hk =>
      obtain ⟨name, hn, rfl⟩ := Option.map_eq_some_iff.1 h
      exact ⟨⟨n, by rw [hk]⟩, name, rfl, nameToken_some hn⟩
    · cases h
  · cases h

theorem formPlain_some {kw : Text} {i : Instr} {ws : List Text} {form : SourceForm}
    (h : formPlain kw i ws = some form) : ws = [kw] ∧ form = .instr i := by
  unfold formPlain at h
  split at h
  · split at h
    · next hk => cases h; exact ⟨by rw [hk], rfl⟩
    · cases h
  · cases h

theorem formLabel_some {ws : List Text} {form : SourceForm} (h : formLabel ws = some form) :
    ∃ name, form = .label name ∧ isName name = true := by
  unfold formLabel at h
  split at h
  · obtain ⟨name, hn, rfl⟩ := Option.map_eq_some_iff.1 h
    exact ⟨name, rfl, declToken_some hn⟩
  · cases h

/-! ### The forms exclude each other (R104) -/

/-- What tells the form of a line: nothing for a declaration, the first word for every other line. -/
def lineKey (ws : List Text) : Option Text :=
  if (formLabel ws).isSome then none else ws.head?

/-- A form accepts only lines with this key. -/
def KeyedBy (key : Option Text) (f : List Text → Option SourceForm) : Prop :=
  ∀ ws form, f ws = some form → lineKey ws = key

/-- The keys of the eleven forms: the keywords, and none for a declaration. -/
def lineKeys : List (Option Text) :=
  [some ['L', 'O', 'A', 'D', 'M'], some ['S', 'T', 'O', 'R', 'E'], some ['J', 'U', 'M', 'P', 'Z'],
    some ['A', 'D', 'D'], some ['S', 'U', 'B'], some ['D', 'E', 'C'], some ['I', 'N', 'C'],
    some ['L', 'O', 'A', 'D', 'C'], some ['C', 'O', 'P', 'Y'], some ['S', 'T', 'O', 'P'], none]

theorem lineKeys_nodup : lineKeys.Nodup := by decide

/-- A line of two words or more is no declaration. -/
theorem lineKey_of_two (k w : Text) (ws : List Text) : lineKey (k :: w :: ws) = some k := rfl

theorem formRegByte_keyed (kw : Text) (mk : RegIx → Byte → Instr) :
    KeyedBy (some kw) (formRegByte kw mk) := by
  rintro ws form h
  obtain ⟨⟨r, b, rfl⟩, -⟩ := formRegByte_some h
  exact lineKey_of_two _ _ _

theorem formRegRegReg_keyed (kw : Text) (mk : RegIx → RegIx → RegIx → Instr) :
    KeyedBy (some kw) (formRegRegReg kw mk) := by
  rintro ws form h
  obtain ⟨⟨r1, r2, r3, rfl⟩, -⟩ := formRegRegReg_some h
  exact lineKey_of_two _ _ _

theorem formReg_keyed (kw : Text) (mk : RegIx → Instr) : KeyedBy (some kw) (formReg kw mk) := by
  rintro ws form h
  obtain ⟨⟨r, rfl⟩, -⟩ := formReg_some h
  exact lineKey_of_two _ _ _

theorem formRegReg_keyed (kw : Text) (mk : RegIx → RegIx → Instr) :
    KeyedBy (some kw) (formRegReg kw mk) := by
  rintro ws form h
  obtain ⟨⟨r1, r2, rfl⟩, -⟩ := formRegReg_some h
  exact lineKey_of_two _ _ _

theorem formJump_keyed (kw : Text) : KeyedBy (some kw) (formJump kw) := by
  rintro ws form h
  obtain ⟨⟨n, rfl⟩, -⟩ := formJump_some h
  exact lineKey_of_two _ _ _

theorem formPlain_keyed {kw : Text} (hkw : declToken kw = none) (i : Instr) :
    KeyedBy (some kw) (formPlain kw i) := by
  rintro ws form h
  obtain ⟨rfl, -⟩ := formPlain_some h
  simp [lineKey, formLabel, hkw]

theorem formLabel_keyed : KeyedBy none formLabel := by
  rintro ws form h
  simp [lineKey, h]

theorem lineForms_keyed : List.Forall₂ KeyedBy lineKeys lineForms :=
  .cons (formRegByte_keyed _ _) <| .cons (formRegByte_keyed _ _) <| .cons (formJump_keyed _) <|
  .cons (formRegRegReg_keyed _ _) <| .cons (formRegRegReg_keyed _ _) <| .cons (formReg_keyed _ _) <|
  .cons (formReg_keyed _ _) <| .cons (formRegByte_keyed _ _) <| .cons (formRegReg_keyed _ _) <|
  .cons (formPlain_keyed (by decide) _) <| .cons formLabel_keyed .nil

theorem filterMap_eq_nil_of_keyed {keys : List (Option Text)}
    {forms : List (List Text → Option SourceForm)} (h : List.Forall₂ KeyedBy keys forms) {ws : List Text}
    (hkey : lineKey ws ∉ keys) : forms.filterMap (fun f => f ws) = [] := by
  induction h with
  | nil => rfl
  | @cons key f keys forms hf _ ih =>
    simp only [List.mem_cons, not_or] at hkey
    have hnone : f ws = none :=
      Option.eq_none_iff_forall_ne_some.2 fun form hform => hkey.1 (hf ws form hform)
    rw [List.filterMap_cons, hnone]
    exact ih hkey.2

/-- Of forms with different keys at most one accepts a line. -/
theorem filterMap_length_le_one_of_keyed {keys : List (Option Text)}
    {forms : List (List Text → Option SourceForm)} (h : List.Forall₂ KeyedBy keys forms)
    (hnodup : keys.Nodup) (ws : List Text) : (forms.filterMap (fun f => f ws)).length ≤ 1 := by
  induction h with
  | nil => simp
  | @cons key f keys forms hf hrest ih =>
    rw [List.nodup_cons] at hnodup
    cases hform : f ws with
    | none => rw [List.filterMap_cons, hform]; exact ih hnodup.2
    | some form =>
      have hkey : lineKey ws ∉ keys := hf ws form hform ▸ hnodup.1
      rw [List.filterMap_cons, hform, filterMap_eq_nil_of_keyed hrest hkey]
      exact Nat.le_refl 1

/-! ### Parsed lines (R102, R107) -/

theorem parseForm_some {t : Text} {form : SourceForm} (h : parseForm t = some form) :
    ∃ f ∈ lineForms, f (tokens t) = some form := by
  unfold parseForm at h
  split at h
  · next hm =>
    cases h
    exact List.mem_filterMap.1 (by rw [← matchingForms, hm]; exact List.mem_singleton.2 rfl)
  · cases h

/-- An instruction that is no JUMPZ is a well-formed form. -/
theorem instrForm_wf {i : Instr} (h : ∀ a, i ≠ .jumpz a) : (SourceForm.instr i).wf = true := by
  cases i with
  | jumpz a => exact absurd rfl (h a)
  | _ => simp only [SourceForm.wf, instr_wf]

/-- A form accepts well-formed lines only. -/
def Sound (f : List Text → Option SourceForm) : Prop :=
  ∀ ws form, f ws = some form → form.wf = true

theorem formRegByte_sound (kw : Text) {mk : RegIx → Byte → Instr} (h : ∀ x v a, mk x v ≠ .jumpz a) :
    Sound (formRegByte kw mk) := by
  rintro ws form hform
  obtain ⟨-, x, v, rfl⟩ := formRegByte_some hform
  exact instrForm_wf (h x v)

theorem formRegRegReg_sound (kw : Text) {mk : RegIx → RegIx → RegIx → Instr}
    (h : ∀ x y z a, mk x y z ≠ .jumpz a) : Sound (formRegRegReg kw mk) := by
  rintro ws form hform
  obtain ⟨-, x, y, z, rfl⟩ := formRegRegReg_some hform
  exact instrForm_wf (h x y z)

theorem formReg_sound (kw : Text) {mk : RegIx → Instr} (h : ∀ x a, mk x ≠ .jumpz a) :
    Sound (formReg kw mk) := by
  rintro ws form hform
  obtain ⟨-, x, rfl⟩ := formReg_some hform
  exact instrForm_wf (h x)

theorem formRegReg_sound (kw : Text) {mk : RegIx → RegIx → Instr} (h : ∀ x y a, mk x y ≠ .jumpz a) :
    Sound (formRegReg kw mk) := by
  rintro ws form hform
  obtain ⟨-, x, y, rfl⟩ := formRegReg_some hform
  exact instrForm_wf (h x y)

theorem formJump_sound (kw : Text) : Sound (formJump kw) := by
  rintro ws form hform
  obtain ⟨-, name, rfl, hname⟩ := formJump_some hform
  exact hname

theorem formPlain_sound (kw : Text) {i : Instr} (h : ∀ a, i ≠ .jumpz a) : Sound (formPlain kw i) := by
  rintro ws form hform
  obtain ⟨-, rfl⟩ := formPlain_some hform
  exact instrForm_wf h

theorem formLabel_sound : Sound formLabel := by
  rintro ws form hform
  obtain ⟨name, rfl, hname⟩ := formLabel_some hform
  exact hname

theorem lineForms_sound : ∀ f ∈ lineForms, Sound f := by
  simp only [lineForms, List.forall_mem_cons]
  exact ⟨formRegByte_sound _ (by simp), formRegByte_sound _ (by simp), formJump_sound _,
    formRegRegReg_sound _ (by simp), formRegRegReg_sound _ (by simp), formReg_sound _ (by simp),
    formReg_sound _ (by simp), formRegByte_sound _ (by simp), formRegReg_sound _ (by simp),
    formPlain_sound _ (by simp), formLabel_sound, by simp⟩

/-! ### The words of an instruction (R64, D19) -/

/-- The words of an instruction's spelling. -/
def wordsOf : Instr → List Text
  | .loadm ra a => [['L', 'O', 'A', 'D', 'M'], regText ra, byteText a]
  | .store ra a => [['S', 'T', 'O', 'R', 'E'], regText ra, byteText a]
  | .jumpz a => [['J', 'U', 'M', 'P', 'Z'], '@' :: byteText a]
  | .add ra rb rc => [['A', 'D', 'D'], regText ra, regText rb, regText rc]
  | .sub ra rb rc => [['S', 'U', 'B'], regText ra, regText rb, regText rc]
  | .dec ra => [['D', 'E', 'C'], regText ra]
  | .inc ra => [['I', 'N', 'C'], regText ra]
  | .loadc ra v => [['L', 'O', 'A', 'D', 'C'], regText ra, byteText v]
  | .copy ra rb => [['C', 'O', 'P', 'Y'], regText ra, regText rb]
  | .stop => [['S', 'T', 'O', 'P']]

theorem disassemble_eq_spaced (i : Instr) : disassemble i = spaced (wordsOf i) := by
  cases i <;> rfl

theorem wordsOf_ne_nil (i : Instr) : wordsOf i ≠ [] := by
  cases i <;> simp [wordsOf]

/-- Nothing is upper-cased in an upper-case letter, and it is no blank. -/
theorem upperLetter_plain {c : Char} (h : isUpperLetter c = true) : isBlank c = false ∧ upperChar c = c := by
  simp only [isUpperLetter, Bool.and_eq_true, decide_eq_true_eq] at h
  constructor
  · have hspace : c ≠ ' ' := by rintro rfl; revert h; decide
    have htab : c ≠ '\t' := by rintro rfl; revert h; decide
    simp [isBlank, hspace, htab]
  · have hlow : ¬ 'a' ≤ c := fun ha => absurd (ha.trans h.2) (by decide)
    exact if_neg fun hc => hlow hc.1

/-- A keyword or a label name. -/
theorem plain_of_isName {w : Text} (h : isName w = true) : Plain w := by
  simp only [isName, Bool.and_eq_true, Bool.not_eq_true', List.isEmpty_eq_false_iff, List.all_eq_true] at h
  exact ⟨h.1, fun c hc => upperLetter_plain (h.2 c hc)⟩

theorem target_plain (a : Byte) : Plain ('@' :: byteText a) :=
  ⟨by simp, List.forall_mem_cons.2 ⟨by decide, (byteText_plain a).2⟩⟩

theorem wordsOf_plain (i : Instr) : ∀ w ∈ wordsOf i, Plain w := by
  cases i <;> simp [wordsOf, regText_plain, byteText_plain, target_plain] <;> exact plain_of_isName rfl

/-- The words of an instruction have that instruction's form and no other, but for JUMPZ (R107). -/
theorem lineForms_wordsOf {i : Instr} (h : ∀ a, i ≠ .jumpz a) :
    lineForms.filterMap (fun f => f (wordsOf i)) = [.instr i] := by
  cases i with
  | jumpz a => exact absurd rfl (h a)
  | stop => rfl
  | _ =>
    simp [lineForms, wordsOf, List.filterMap_cons, formRegByte, formRegRegReg, formReg, formRegReg, formJump, formPlain,
      formLabel, regToken_regText, byteToken_byteText]

/-- A numeric target is no label name, so JUMPZ's words have no form (R107). -/
theorem lineForms_wordsOf_jumpz (a : Byte) :
    lineForms.filterMap (fun f => f (wordsOf (.jumpz a))) = [] := by
  have hname : nameToken ('@' :: byteText a) = none := rfl
  simp [lineForms, wordsOf, List.filterMap_cons, formRegByte, formRegRegReg, formReg, formRegReg, formJump, formPlain,
    formLabel, hname]

/-- An instruction's encoding, and the assembly of its one line. -/
theorem spelled_wordsOf {i : Instr} {b0 b1 : Nat} (h : ∀ a, i ≠ .jumpz a)
    (he : encode i = (BitVec.ofNat 8 b0, BitVec.ofNat 8 b1)) : Spelled i b0 b1 (wordsOf i) :=
  spelled_of (wordsOf_plain i) (wordsOf_ne_nil i) he (lineForms_wordsOf h)

end Sys2Proof.Machine

namespace Sys2Proof
open Sys2Proof.Machine

/-- Settles O57: the eleven forms have different keys. -/
theorem formsAreMutuallyExclusive : Obligations.FormsAreMutuallyExclusive := by
  intro t
  exact filterMap_length_le_one_of_keyed lineForms_keyed lineKeys_nodup (tokens t)

/-- Settles O58. -/
theorem parsedLinesAreWellFormed : Obligations.ParsedLinesAreWellFormed := by
  intro t form h
  obtain ⟨f, hf, hform⟩ := parseForm_some h
  exact lineForms_sound f hf _ form hform

/-- Settles O59: both LF and CR LF end a line, whatever follows. -/
theorem joinedLinesAreSplitBack : Obligations.JoinedLinesAreSplitBack := by
  intro lines hne h
  exact ⟨splitLines_intercalate (fun _ => rfl) hne h, splitLines_intercalate (fun _ => rfl) hne h⟩

/-- Settles O60: the disassembly is the instruction's plain words, and its form is read off them. -/
theorem disassemblyParsesBack : Obligations.DisassemblyParsesBack := by
  refine ⟨fun i h => ?_, fun a => ?_⟩
  · rw [disassemble_eq_spaced]
    exact parseForm_spaced (wordsOf_plain i) (lineForms_wordsOf h)
  · rw [disassemble_eq_spaced, parseForm, matchingForms, tokens_normalize_spaced _ (wordsOf_plain _),
      lineForms_wordsOf_jumpz]

end Sys2Proof
end

section
/-! PROOFS. The statements about the instructions' encodings, spellings and results (41_memory_and_move,
42_arithmetic, 43_control). -/

namespace Sys2Proof.Machine

/-! ### The bytes of an encoding as numbers (R57) -/

/-- A byte made of two nibbles. -/
theorem nibbles_eq_ofNat (a b : Nibble) : a ++ b = BitVec.ofNat 8 (16 * a.toNat + b.toNat) := by
  revert a b; decide

theorem byte_eq_ofNat (b : Byte) : b = BitVec.ofNat 8 b.toNat := by simp

/-- The second byte of a DEC or an INC is ignored (D6). -/
theorem decode_dec (ra : RegIx) (b1 : Byte) :
    decode (BitVec.ofNat 8 (0x50 + ra.toNat)) b1 = .instr (.dec ra) := by
  have hbyte : BitVec.ofNat 8 (0x50 + ra.toNat) = (0x5#4 ++ ra : Byte) := (nibbles_eq_ofNat 0x5 ra).symm
  rw [hbyte]
  simp [decode]

theorem decode_inc (ra : RegIx) (b1 : Byte) :
    decode (BitVec.ofNat 8 (0x60 + ra.toNat)) b1 = .instr (.inc ra) := by
  have hbyte : BitVec.ofNat 8 (0x60 + ra.toNat) = (0x6#4 ++ ra : Byte) := (nibbles_eq_ofNat 0x6 ra).symm
  rw [hbyte]
  simp [decode]

/-! ### The state after an instruction below the top of memory -/

/-- An instruction that neither jumps nor halts, where `pc` can advance: its effect, and the advance (R81). -/
theorem exec_advances {i : Instr} {s : State} (hx : s.Executing) (ha : s.Advances)
    (hst : (effect i s).status = s.status) (hj : (effect i s).jumped = s.jumped) :
    exec i s = .next ((effect i s).setPc (s.pc + 2)) ∧ Advanced s ((effect i s).setPc (s.pc + 2)) := by
  obtain ⟨hr, hjumped, -⟩ := hx
  have hparams := effect_params i s
  have ha' : s.pc.toNat < 254 ∨ (effect i s).params.pcTop = .wrap := hparams ▸ ha
  refine ⟨?_, add_two_toNat s.pc, hj.trans hjumped, hst, effect_fault i s, hparams⟩
  rw [exec_eq, complete_advances (hst.trans hr) (hj.trans hjumped) ha']

/-- A byte is zero exactly if its value is. -/
theorem byte_eq_zero_iff (b : Byte) : b = 0 ↔ b.toNat = 0 :=
  ⟨fun h => h ▸ rfl, fun h => BitVec.eq_of_toNat_eq h⟩

theorem addByte_eq_zero_iff (a b : Byte) :
    addByte a b = 0 ↔ a.toNat + b.toNat = 0 ∨ a.toNat + b.toNat = 256 := by
  rw [byte_eq_zero_iff, addByte_toNat]
  omega

theorem subByte_eq_zero_iff (a b : Byte) : subByte a b = 0 ↔ a = b :=
  sub_eq_zero

theorem incByte_eq_zero_iff (a : Byte) : incByte a = 0 ↔ a = 0xFF := by
  rw [byte_eq_zero_iff, incByte_toNat, ← BitVec.toNat_inj]
  change _ ↔ a.toNat = 255
  omega

end Sys2Proof.Machine

namespace Sys2Proof
open Sys2Proof.Machine

/-! ### Loads, stores and moves -/

/-- Settles O1. -/
theorem loadmLoadsTheCell : Obligations.LoadmLoadsTheCell := by
  refine ⟨fun ra a => ?_, fun ra a s hx ha => ?_⟩
  · exact spelled_wordsOf (i := .loadm ra a) (by simp)
      (Prod.ext (nibbles_eq_ofNat 0x0 ra) (byte_eq_ofNat a))
  · obtain ⟨hexec, hadv⟩ := exec_advances (i := .loadm ra a) hx ha rfl rfl
    exact ⟨_, hexec, fun r => readReg_writeReg s ra r _, rfl, rfl, fun _ => rfl, hadv⟩

/-- Settles O2. -/
theorem storeStoresTheRegister : Obligations.StoreStoresTheRegister := by
  refine ⟨fun ra a => ?_, fun ra a s hx ha => ?_⟩
  · exact spelled_wordsOf (i := .store ra a) (by simp)
      (Prod.ext (nibbles_eq_ofNat 0x1 ra) (byte_eq_ofNat a))
  · obtain ⟨hexec, hadv⟩ := exec_advances (i := .store ra a) hx ha rfl rfl
    exact ⟨_, hexec, fun x => memRead_memWrite s a x _, rfl, rfl, fun _ => rfl, hadv⟩

/-- Settles O3. -/
theorem loadcLoadsTheConstant : Obligations.LoadcLoadsTheConstant := by
  refine ⟨fun ra v => ?_, fun ra v s hx ha => ?_⟩
  · exact spelled_wordsOf (i := .loadc ra v) (by simp)
      (Prod.ext (nibbles_eq_ofNat 0x7 ra) (byte_eq_ofNat v))
  · obtain ⟨hexec, hadv⟩ := exec_advances (i := .loadc ra v) hx ha rfl rfl
    obtain ⟨-, -, hcur⟩ := hx
    exact ⟨_, hexec, fun r => readReg_writeReg s ra r _, rfl, hcur, fun _ => rfl, hadv⟩

/-- Settles O4. -/
theorem copyMovesAndKeepsTheCondition : Obligations.CopyMovesAndKeepsTheCondition := by
  refine ⟨fun ra rb => ?_, fun ra rb s hx ha => ?_⟩
  · exact spelled_wordsOf (i := .copy ra rb) (by simp)
      (Prod.ext (nibbles_eq_ofNat 0x8 ra) (nibbles_eq_ofNat rb 0x0))
  · obtain ⟨hexec, hadv⟩ := exec_advances (i := .copy ra rb) hx ha rfl rfl
    obtain ⟨-, -, hcur⟩ := hx
    exact ⟨_, hexec, fun r => readReg_writeReg s ra r _, rfl, hcur, fun _ => rfl, hadv⟩

/-! ### Arithmetic -/

/-- Settles O5. -/
theorem addWritesTheSumModulo256 : Obligations.AddWritesTheSumModulo256 := by
  refine ⟨fun ra rb rc => ?_, fun ra rb rc s hx ha => ?_⟩
  · exact spelled_wordsOf (i := .add ra rb rc) (by simp)
      (Prod.ext (nibbles_eq_ofNat 0x3 ra) (nibbles_eq_ofNat rb rc))
  · obtain ⟨hexec, hadv⟩ := exec_advances (i := .add ra rb rc) hx ha rfl rfl
    obtain ⟨-, -, hcur⟩ := hx
    exact ⟨_, addByte (s.readReg rb) (s.readReg rc), hexec, addByte_toNat _ _,
      fun r => readReg_writeReg s ra r _, rfl, addByte_eq_zero_iff _ _, hcur, fun _ => rfl, hadv⟩

/-- Settles O6. -/
theorem subWritesTheDifferenceModulo256 : Obligations.SubWritesTheDifferenceModulo256 := by
  refine ⟨fun ra rb rc => ?_, fun ra rb rc s hx ha => ?_⟩
  · exact spelled_wordsOf (i := .sub ra rb rc) (by simp)
      (Prod.ext (nibbles_eq_ofNat 0x4 ra) (nibbles_eq_ofNat rb rc))
  · obtain ⟨hexec, hadv⟩ := exec_advances (i := .sub ra rb rc) hx ha rfl rfl
    obtain ⟨-, -, hcur⟩ := hx
    exact ⟨_, subByte (s.readReg rb) (s.readReg rc), hexec, subByte_toNat _ _,
      fun r => readReg_writeReg s ra r _, rfl, subByte_eq_zero_iff _ _, hcur, fun _ => rfl, hadv⟩

/-- Settles O7. -/
theorem decWrapsAndRecords : Obligations.DecWrapsAndRecords := by
  refine ⟨fun ra => ⟨?_, decode_dec ra⟩, fun ra s hx ha => ?_⟩
  · exact spelled_wordsOf (i := .dec ra) (by simp) (Prod.ext (nibbles_eq_ofNat 0x5 ra) rfl)
  · obtain ⟨hexec, hadv⟩ := exec_advances (i := .dec ra) hx ha rfl rfl
    obtain ⟨-, -, hcur⟩ := hx
    exact ⟨_, decByte (s.readReg ra), hexec, decByte_toNat _, fun r => readReg_writeReg s ra r _, rfl,
      subByte_eq_zero_iff _ 1, hcur, fun _ => rfl, hadv⟩

/-- Settles O8. -/
theorem incWrapsAndRecords : Obligations.IncWrapsAndRecords := by
  refine ⟨fun ra => ⟨?_, decode_inc ra⟩, fun ra s hx ha => ?_⟩
  · exact spelled_wordsOf (i := .inc ra) (by simp) (Prod.ext (nibbles_eq_ofNat 0x6 ra) rfl)
  · obtain ⟨hexec, hadv⟩ := exec_advances (i := .inc ra) hx ha rfl rfl
    obtain ⟨-, -, hcur⟩ := hx
    exact ⟨_, incByte (s.readReg ra), hexec, incByte_toNat _, fun r => readReg_writeReg s ra r _, rfl,
      incByte_eq_zero_iff _, hcur, fun _ => rfl, hadv⟩

/-! ### Control -/

/-- Settles O9: a taken JUMPZ ends its Step where it jumped to. -/
theorem jumpzTakenGoesToTheTarget : Obligations.JumpzTakenGoesToTheTarget := by
  intro a s hx hz
  obtain ⟨-, -, hcur⟩ := hx
  have hexec : exec (.jumpz a) s = .next (s.setPc a).markJumped := by
    rw [exec_eq, effect, jumpIfZero_taken hz, complete_jumped rfl]
  exact ⟨rfl, _, hexec, rfl, rfl, rfl, hcur, fun _ => rfl, fun _ => rfl, rfl, rfl, rfl⟩

/-- Settles O10: a JUMPZ that is not taken has no effect but the advance. -/
theorem jumpzNotTakenFallsThrough : Obligations.JumpzNotTakenFallsThrough := by
  intro a s hx ha hz
  have heffect : effect (.jumpz a) s = s := jumpIfZero_notTaken hz a
  obtain ⟨hexec, hadv⟩ := exec_advances (i := .jumpz a) hx ha (by rw [heffect]) (by rw [heffect])
  rw [heffect] at hexec hadv
  obtain ⟨-, -, hcur⟩ := hx
  exact ⟨_, hexec, rfl, hcur, fun _ => rfl, fun _ => rfl, hadv⟩

/-- Settles O11: a halted machine's Step does not advance. -/
theorem stopHaltsInPlace : Obligations.StopHaltsInPlace := by
  refine ⟨spelled_wordsOf (i := .stop) (by simp) rfl, fun s hx => ?_⟩
  obtain ⟨-, hj, hcur⟩ := hx
  have hexec : exec .stop s = .next s.halt := by rw [exec_eq, stop_complete]
  exact ⟨_, hexec, rfl, rfl, rfl, hj, hcur, rfl, rfl, fun _ => rfl, fun _ => rfl⟩

end Sys2Proof
end

section
/-! PROOFS. The statements about the block's interface (15_interfaces): Reset, Load, Assemble, and sequences of
the host's operations. -/

namespace Sys2Proof.Machine

/-! ### Reset and Load -/

theorem init_readReg (p : Params) (r : RegIx) : (State.init p).readReg r = p.resetReg := by
  simp [State.readReg, State.init]

theorem init_memRead (p : Params) (a : Byte) : (State.init p).memRead a = p.resetMem :=
  readCell_fill p.resetMem a.toNat a.isLt

theorem load_refused {start : Nat} (h : 256 ≤ start) (bytes : List Byte) (s : State) :
    load bytes start s = .refused (.startOutOfRange start) := if_neg (Nat.not_lt.2 h)

/-- A Load that answers a state had a start in range, and leaves the image in memory (R32, R33). -/
theorem load_next {bytes : List Byte} {start : Nat} {s t : State} (h : load bytes start s = .next t) :
    start < 256 ∧ t = s.loadImage bytes start := by
  by_cases hstart : start < 256
  · rw [load_eq_next hstart] at h
    cases h
    exact ⟨hstart, rfl⟩
  · rw [load_refused (Nat.not_lt.1 hstart)] at h
    cases h

theorem loadImage_hostInv {s : State} (h : s.HostInv) (bytes : List Byte) {start : Nat}
    (hstart : start < 256) : (s.loadImage bytes start).HostInv := by
  obtain ⟨hwf, hrec⟩ := h
  refine ⟨writeCells_wf _ _ _ ?_ hwf, hrec⟩
  rw [List.length_take]
  omega

/-! ### Assemble -/

theorem assemble_ok {pol : LabelOverflow} {src : Text} {start : Nat} {out : AsmOutput}
    (hstart : start < 256)
    (h : assembleLines pol (splitLines src) (BitVec.ofNat 8 start) = .ok out) :
    assemble pol src start = .next out := by
  rw [assemble, if_pos hstart, h]

theorem assemble_error {pol : LabelOverflow} {src : Text} {start : Nat} {e : AsmError}
    (hstart : start < 256)
    (h : assembleLines pol (splitLines src) (BitVec.ofNat 8 start) = .error e) :
    assemble pol src start = .fault e := by
  rw [assemble, if_pos hstart, h]

theorem assemble_refused {start : Nat} (h : 256 ≤ start) (pol : LabelOverflow) (src : Text) :
    assemble pol src start = .refused (.startOutOfRange start) := if_neg (Nat.not_lt.2 h)

/-- No Assemble touches the CPU (R35, R137). -/
theorem apply_assemble_cpu {b b' : Block} {src : Text} {start : Nat}
    (h : b.apply (.assemble src start) = .next b') : b'.cpu = b.cpu := by
  simp only [Block.apply] at h
  split at h <;> cases h <;> rfl

/-! ### Sequences of operations (R36) -/

theorem withCpu_next {b b' : Block} {o : Host.Outcome State Fault Refusal}
    (h : b.withCpu o = .next b') : o = .next b'.cpu := by
  cases o <;> cases h
  rfl

theorem run_cons_next {b b' : Block} {op : HostOp} {ops : List HostOp}
    (h : b.run (op :: ops) = .next b') : ∃ c, b.apply op = .next c ∧ c.run ops = .next b' := by
  unfold Block.run at h
  split at h
  · next c hc => exact ⟨c, hc, h⟩
  · cases h
  · cases h

/-- What every operation keeps, every sequence of operations keeps. -/
theorem run_induction {P : Block → Prop} {ops : List HostOp} {b b' : Block}
    (hstep : ∀ op ∈ ops, ∀ c c' : Block, P c → c.apply op = .next c' → P c') (hb : P b)
    (hrun : b.run ops = .next b') : P b' := by
  induction ops generalizing b with
  | nil => cases hrun; exact hb
  | cons op ops ih =>
    obtain ⟨c, hc, hrest⟩ := run_cons_next hrun
    exact ih (fun o ho => hstep o (by simp [ho])) (hstep op (by simp) b c hb hc) hrest

/-! ### What the operations keep (R26) -/

theorem step_params {s t : State} (h : step s = .next t) : t.params = s.params := by
  rcases step_executes_or_keeps h with ⟨-, -, -, -, hparams⟩ | ⟨-, i, -, rfl⟩
  · exact hparams
  · rw [complete_params, effect_params, beginStep_params]

theorem raise_hostInv {s : State} (h : s.HostInv) (f : Fault) : (s.raise f).HostInv :=
  ⟨h.1, by simp [State.RecordInv]⟩

theorem step_hostInv {s t : State} (h : s.HostInv) (hstep : step s = .next t) : t.HostInv := by
  rcases step_outcomes hstep with
    ⟨-, rfl⟩ | ⟨-, -, -, rfl⟩ | ⟨-, -, -, -, rfl⟩ | ⟨hr, -, i, hd, rfl⟩
  · exact h
  · exact raise_hostInv (s := s.beginStep) h _
  · exact raise_hostInv (s := s.beginStep) h _
  · exact (executed_coherent h hr hd).1

/-- Every operation of the host keeps the fault record, the memory's form and the parameters. -/
theorem apply_hostInv {op : HostOp} {b b' : Block} (h : b.cpu.HostInv) (hop : b.apply op = .next b') :
    b'.cpu.HostInv ∧ b'.cpu.params = b.cpu.params := by
  cases op with
  | reset =>
    cases hop
    exact ⟨(resetIsCoherent b.cpu.params).1, rfl⟩
  | load bytes start =>
    obtain ⟨hstart, hcpu⟩ := load_next (withCpu_next hop)
    rw [hcpu]
    exact ⟨loadImage_hostInv h bytes hstart, rfl⟩
  | step => exact ⟨step_hostInv h (withCpu_next hop), step_params (withCpu_next hop)⟩
  | assemble src start =>
    rw [apply_assemble_cpu hop]
    exact ⟨h, rfl⟩

end Sys2Proof.Machine

namespace Sys2Proof
open Sys2Proof.Machine

/-- Settles O40, by induction on the sequence of operations. -/
theorem hostOperationsKeepTheInvariant : Obligations.HostOperationsKeepTheInvariant := by
  intro ops b b' h hrun
  refine run_induction (P := fun c => c.cpu.HostInv ∧ c.cpu.params = b.cpu.params) ?_ ⟨h, rfl⟩ hrun
  rintro op - c c' ⟨hc, hparams⟩ hop
  obtain ⟨hc', hparams'⟩ := apply_hostInv hc hop
  exact ⟨hc', hparams'.trans hparams⟩

/-- Settles O41, by induction on the sequence: a Step of a stopped machine and an Assemble leave the CPU. -/
theorem onlyResetOrLoadMovesAStoppedMachine : Obligations.OnlyResetOrLoadMovesAStoppedMachine := by
  intro ops b b' hstopped hops hrun
  refine run_induction (P := fun c => c.cpu = b.cpu) (fun op hmem c c' hc hop => ?_) rfl hrun
  rcases hops op hmem with rfl | ⟨src, start, rfl⟩
  · have hstep : step c.cpu = .next c'.cpu := withCpu_next hop
    rw [hc, step_stopped hstopped] at hstep
    exact (Host.Outcome.next.inj hstep).symm
  · exact (apply_assemble_cpu hop).trans hc

/-- Settles O42. -/
theorem resetLeavesTheNamedValues : Obligations.ResetLeavesTheNamedValues := by
  intro s
  exact ⟨init_readReg s.params, init_memRead s.params, rfl, rfl, rfl, rfl, rfl, rfl, rfl⟩

/-- Settles O44: the state a Load leaves, cell by cell. -/
theorem loadWritesTheImageAndPcOnly : Obligations.LoadWritesTheImageAndPcOnly := by
  intro bytes start s hstart
  have hpc : (s.loadImage bytes start).pc.toNat = start := Nat.mod_eq_of_lt hstart
  exact ⟨_, load_eq_next hstart bytes s, hpc, loadImage_memRead s bytes start, fun _ => rfl, rfl,
    ⟨rfl, rfl, rfl⟩, rfl, rfl⟩

/-- Settles O45. -/
theorem startAbove255IsRefused : Obligations.StartAbove255IsRefused := by
  intro start h
  exact ⟨load_refused h, assemble_refused h⟩

/-- Settles O46: the assembly succeeds or fails, and either way the block keeps its CPU. -/
theorem assembleLeavesTheCpuAlone : Obligations.AssembleLeavesTheCpuAlone := by
  intro b src start hstart
  cases h : assembleLines b.cpu.params.labelOverflow (splitLines src) (BitVec.ofNat 8 start) with
  | ok out =>
    exact ⟨{ b with asm := some out, asmError := none },
      by simp [Block.apply, assemble_ok hstart h], rfl, rfl, rfl⟩
  | error e =>
    exact ⟨{ b with asmError := some e },
      by simp [Block.apply, assemble_error hstart h], rfl, rfl, rfl⟩

end Sys2Proof
end

section
/-! PROOFS. The statements about the assembler's outputs (50_assembler sections 2 to 5). -/

namespace Sys2Proof.Machine

/-! ### Both passes -/

theorem assembleLines_of_passes {pol : LabelOverflow} {lines : List Text} {start : Byte} {r : AsmRun}
    {prog : List AsmEntry} (h1 : pass1 pol (AsmRun.empty start) 1 lines = .ok r)
    (h2 : pass2 r.labels r.prog = .ok prog) :
    assembleLines pol lines start = .ok ⟨objectBytes prog, r.labels, prog.map (·.lineText)⟩ := by
  simp only [assembleLines, h1, h2]

/-- An assembly that succeeds went through both passes. -/
theorem assembleLines_ok {pol : LabelOverflow} {lines : List Text} {start : Byte} {out : AsmOutput}
    (h : assembleLines pol lines start = .ok out) :
    ∃ r prog, pass1 pol (AsmRun.empty start) 1 lines = .ok r ∧ pass2 r.labels r.prog = .ok prog ∧
      out = ⟨objectBytes prog, r.labels, prog.map (·.lineText)⟩ := by
  unfold assembleLines at h
  split at h
  · cases h
  · next r h1 =>
    split at h
    · cases h
    · next prog h2 =>
      cases h
      exact ⟨r, prog, h1, h2, rfl⟩

/-- The label table pass 1 leaves from an empty run. -/
theorem pass1_labels {pol : LabelOverflow} {lines : List Text} {start : Byte} {r : AsmRun}
    (h : pass1 pol (AsmRun.empty start) 1 lines = .ok r) :
    r.labels = labelTable start.toNat 0 lines := by
  rw [pass1_ok h]
  rfl

/-- A declaration made now would be at twice the instructions so far plus the start (R115). -/
theorem pass1_here {pol : LabelOverflow} {lines : List Text} {start : Byte} {r : AsmRun}
    (h : pass1 pol (AsmRun.empty start) 1 lines = .ok r) :
    r.here = 2 * (emittedLines lines).length + start.toNat := by
  rw [pass1_ok h]
  simp [AsmRun.here, AsmRun.count, AsmRun.empty, entriesFrom_length]

/-! ### Label declarations (R115, R118, R119) -/

theorem declaredName_eq_some {line name : Text} :
    declaredName line = some name ↔ parseForm (normalize line) = some (.label name) := by
  unfold declaredName
  split <;> simp_all

theorem normalize_ne_nil {line : Text} {form : SourceForm}
    (h : parseForm (normalize line) = some form) : normalize line ≠ [] := by
  intro hnil
  rw [hnil, parseForm_nil] at h
  cases h

theorem pass1Line_declaration {line name : Text} (h : declaredName line = some name)
    (pol : LabelOverflow) (r : AsmRun) (n : Nat) : pass1Line pol r n line = r.declare pol n name := by
  rw [declaredName_eq_some] at h
  simp [pass1Line, h, normalize_ne_nil h]

theorem declare_duplicate {r : AsmRun} {name : Text} (h : (lookupLabel r.labels name).isSome = true)
    (pol : LabelOverflow) (n : Nat) : r.declare pol n name = .error (.duplicateLabel n name) := by
  simp [AsmRun.declare, h]

theorem declare_overflow {r : AsmRun} {name : Text} (hnew : lookupLabel r.labels name = none)
    (hover : 255 < r.here) (n : Nat) :
    r.declare .reject n name = .error (.labelOverflow n name r.here) := by
  simp [AsmRun.declare, hnew, hover]

/-- Under `reject` an accepted declaration is at an address up to 255. -/
theorem declare_reject_le {r r' : AsmRun} {n : Nat} {name : Text}
    (h : r.declare .reject n name = .ok r') : r.here ≤ 255 := by
  by_contra hover
  unfold AsmRun.declare at h
  split at h
  · cases h
  · rw [if_pos ⟨by omega, rfl⟩] at h
    cases h

/-- Under `reject` pass 1 leaves no address above 255. -/
theorem pass1_reject_le {lines : List Text} {r r' : AsmRun} {n : Nat}
    (h : pass1 .reject r n lines = .ok r') (hr : ∀ e ∈ r.labels, e.2 ≤ 255) :
    ∀ e ∈ r'.labels, e.2 ≤ 255 := by
  induction lines generalizing r n with
  | nil => cases h; exact hr
  | cons line lines ih =>
    obtain ⟨hline, hrest⟩ := pass1_cons_ok h
    refine ih hrest ?_
    cases hd : declaredName line with
    | none => simpa [AsmRun.after, hd] using hr
    | some name =>
      rw [pass1Line_declaration hd] at hline
      have hhere := declare_reject_le hline
      rintro e he
      simp only [AsmRun.after, hd, Option.map_some, Option.toList_some, List.mem_append,
        List.mem_singleton] at he
      rcases he with he | rfl
      · exact hr e he
      · exact hhere

theorem labelsWf_iff (labels : List (Text × Nat)) :
    labelsWf labels = true ↔ (∀ e ∈ labels, isName e.1 = true) ∧ (labels.map (·.1)).Nodup := by
  induction labels with
  | nil => simp [labelsWf]
  | cons e labels ih =>
    simp only [labelsWf, Bool.and_eq_true, List.all_eq_true, bne_iff_ne, ih, List.forall_mem_cons,
      List.map_cons, List.nodup_cons, List.mem_map, not_exists, not_and]
    tauto

/-- The keys of the table are the declared names, which are words of letters (R102). -/
theorem labelTable_isName {start k : Nat} {lines : List Text} :
    ∀ e ∈ labelTable start k lines, isName e.1 = true := by
  intro e he
  have hname : e.1 ∈ lines.filterMap declaredName := by
    rw [← labelTable_names start k lines]
    exact List.mem_map_of_mem he
  obtain ⟨line, -, hd⟩ := List.mem_filterMap.1 hname
  exact parsedLinesAreWellFormed _ _ (declaredName_eq_some.1 hd)

theorem assembleLines_labels_nodup {pol : LabelOverflow} {lines : List Text} {start : Byte}
    {out : AsmOutput} (h : assembleLines pol lines start = .ok out) : (out.labels.map (·.1)).Nodup := by
  obtain ⟨r, prog, h1, -, rfl⟩ := assembleLines_ok h
  exact pass1_nodup h1 (by simp [AsmRun.empty])

/-! ### Two bytes an instruction (R122) -/

theorem emittedLines_append (a b : List Text) : emittedLines (a ++ b) = emittedLines a ++ emittedLines b :=
  List.filter_append a b

theorem emittedLines_declaration {line name : Text} (h : declaredName line = some name)
    (lines : List Text) : emittedLines (line :: lines) = emittedLines lines :=
  List.filter_cons_of_neg (by simp [declared_not_emitted h])

theorem lineBytes_length {line : Text} (h : emitsEntry line = true) (labels : List (Text × Nat)) :
    (lineBytes labels line).length = 2 := by
  unfold emitsEntry at h
  unfold lineBytes
  split at h
  · rfl
  · rfl
  · cases h

/-- Pieces of two bytes each, joined. -/
theorem flatMap_pairs_length {f : Text → List Byte} {lines : List Text}
    (h : ∀ line ∈ lines, (f line).length = 2) : (lines.flatMap f).length = 2 * lines.length := by
  induction lines with
  | nil => rfl
  | cons line lines ih =>
    rw [List.forall_mem_cons] at h
    rw [List.flatMap_cons, List.length_append, h.1, ih h.2, List.length_cons]
    omega

/-- The bytes at `2 * k` and `2 * k + 1` are the `k`-th piece. -/
theorem flatMap_pairs_getD {f : Text → List Byte} {lines : List Text}
    (h : ∀ line ∈ lines, (f line).length = 2) {k : Nat} {line : Text} (hk : lines[k]? = some line) :
    [(lines.flatMap f).getD (2 * k) 0, (lines.flatMap f).getD (2 * k + 1) 0] = f line := by
  induction lines generalizing k with
  | nil => simp at hk
  | cons l lines ih =>
    rw [List.forall_mem_cons] at h
    obtain ⟨a, b, hab⟩ := List.length_eq_two.1 h.1
    rw [List.flatMap_cons, hab]
    cases k with
    | zero =>
      cases hk
      exact hab.symm
    | succ k => exact ih h.2 hk

/-- A blank line leaves the run as it is (R116). -/
theorem pass1_blank {lines : List Text} (h : ∀ line ∈ lines, normalize line = []) (pol : LabelOverflow)
    (r : AsmRun) (n : Nat) : pass1 pol r n lines = .ok r := by
  induction lines generalizing n with
  | nil => rfl
  | cons line lines ih =>
    rw [List.forall_mem_cons] at h
    have hline : pass1Line pol r n line = .ok r := by simp [pass1Line, h.1]
    rw [pass1, hline]
    exact ih h.2 (n + 1)

/-! ### The start offset (R124) -/

/-- The start offset is added to every address of the table. -/
theorem labelTable_start (start k : Nat) (lines : List Text) :
    labelTable start k lines = (labelTable 0 k lines).map (fun e => (e.1, e.2 + start)) := by
  induction lines generalizing k with
  | nil => rfl
  | cons line lines ih =>
    unfold labelTable
    cases declaredName line with
    | none => exact ih _
    | some name => simp [ih]

theorem lookupLabel_shift (labels : List (Text × Nat)) (start : Nat) (name : Text) :
    lookupLabel (labels.map (fun e => (e.1, e.2 + start))) name =
      (lookupLabel labels name).map (· + start) := by
  simp [lookupLabel, List.find?_map, Function.comp_def]

/-- The labels matter to the bytes of jumps only. -/
theorem lineBytes_of_not_jump {line : Text}
    (h : ∀ name : Text, parseForm (normalize line) ≠ some (.jump name)) (labels labels' : List (Text × Nat)) :
    lineBytes labels line = lineBytes labels' line := by
  unfold lineBytes
  split
  · rfl
  · next name hp => exact absurd hp (h name)
  · rfl

/-! ### The source with every line upper-cased and trimmed (R101) -/

/-- An entry whose stored line is upper-cased and trimmed. -/
def AsmEntry.normalized (e : AsmEntry) : AsmEntry := { e with lineText := normalize e.lineText }

/-- A run whose stored lines are upper-cased and trimmed. -/
def AsmRun.normalized (r : AsmRun) : AsmRun := { r with prog := r.prog.map AsmEntry.normalized }

/-- An output whose stored lines are upper-cased and trimmed. -/
def AsmOutput.normalized (out : AsmOutput) : AsmOutput := { out with lines := out.lines.map normalize }

theorem normalized_here (r : AsmRun) : r.normalized.here = r.here := by
  simp [AsmRun.here, AsmRun.count, AsmRun.normalized]

theorem emit_normalized (r : AsmRun) (line : Text) (n : Nat) (b : Byte × Byte) (pending : Bool) :
    r.normalized.emit (normalize line) n b pending = (r.emit line n b pending).normalized := by
  simp [AsmRun.emit, AsmRun.normalized, AsmEntry.normalized]

theorem declare_normalized (pol : LabelOverflow) (r : AsmRun) (n : Nat) (name : Text) :
    r.normalized.declare pol n name = (r.declare pol n name).map AsmRun.normalized := by
  have hlabels : r.normalized.labels = r.labels := rfl
  unfold AsmRun.declare
  rw [normalized_here, hlabels]
  split
  · rfl
  · split <;> rfl

theorem pass1Line_normalized (pol : LabelOverflow) (r : AsmRun) (n : Nat) (line : Text) :
    pass1Line pol r.normalized n (normalize line) = (pass1Line pol r n line).map AsmRun.normalized := by
  unfold pass1Line
  rw [normalize_normalize]
  split
  · rfl
  · split
    · exact congrArg _ (emit_normalized r line n _ false)
    · exact congrArg _ (emit_normalized r line n placeholder true)
    · exact declare_normalized pol r n _
    · rfl

theorem pass1_normalized (pol : LabelOverflow) (r : AsmRun) (n : Nat) (lines : List Text) :
    pass1 pol r.normalized n (lines.map normalize) = (pass1 pol r n lines).map AsmRun.normalized := by
  induction lines generalizing r n with
  | nil => rfl
  | cons line lines ih =>
    rw [List.map_cons, pass1, pass1, pass1Line_normalized]
    cases pass1Line pol r n line with
    | error e => rfl
    | ok r' => exact ih r' (n + 1)

theorem patchEntry_normalized (labels : List (Text × Nat)) (e : AsmEntry) :
    patchEntry labels e.normalized = (patchEntry labels e).map AsmEntry.normalized := by
  simp only [patchEntry, AsmEntry.normalized, normalize_normalize]
  split
  · split
    · split <;> rfl
    · rfl
  · rfl

theorem pass2_normalized (labels : List (Text × Nat)) (prog : List AsmEntry) :
    pass2 labels (prog.map AsmEntry.normalized) =
      (pass2 labels prog).map (List.map AsmEntry.normalized) := by
  induction prog with
  | nil => rfl
  | cons e es ih =>
    rw [List.map_cons, pass2, pass2, patchEntry_normalized, ih]
    cases patchEntry labels e with
    | error err => rfl
    | ok e' => cases pass2 labels es <;> rfl

theorem objectBytes_normalized (prog : List AsmEntry) :
    objectBytes (prog.map AsmEntry.normalized) = objectBytes prog := by
  simp [objectBytes, List.flatMap_map, AsmEntry.normalized]

/-- Both passes read the lines upper-cased and trimmed, so only the stored lines differ. -/
theorem assembleLines_normalized (pol : LabelOverflow) (lines : List Text) (start : Byte) :
    assembleLines pol (lines.map normalize) start =
      (assembleLines pol lines start).map AsmOutput.normalized := by
  have h1 := pass1_normalized pol (AsmRun.empty start) 1 lines
  have hempty : (AsmRun.empty start).normalized = AsmRun.empty start := rfl
  rw [hempty] at h1
  unfold assembleLines
  rw [h1]
  cases pass1 pol (AsmRun.empty start) 1 lines with
  | error e => rfl
  | ok r =>
    have h2 : pass2 r.normalized.labels r.normalized.prog = _ := pass2_normalized r.labels r.prog
    simp only [Except.map, h2]
    cases pass2 r.labels r.prog with
    | error e => rfl
    | ok prog =>
      simp [objectBytes_normalized, AsmOutput.normalized, AsmRun.normalized, AsmEntry.normalized]

end Sys2Proof.Machine

namespace Sys2Proof
open Sys2Proof.Machine

/-- Settles O47: pass 1 leaves the entries and labels of the lines, and a pass 2 that ends resolved every jump. -/
theorem assemblerTranslatesTheSource : Obligations.AssemblerTranslatesTheSource := by
  intro pol lines start out h
  obtain ⟨r, prog, h1, h2, rfl⟩ := assembleLines_ok h
  rw [pass1_prog h1] at h2
  have hresolved : ∀ line ∈ lines, Resolved r.labels line := pass2_ok_resolved h2
  obtain ⟨prog', h2', hbytes, hlines⟩ := pass2_resolved 1 hresolved
  cases h2.symm.trans h2'
  exact ⟨hlines, pass1_labels h1, hbytes, hresolved⟩

/-- Settles O48: pass 1 raises nothing, and pass 2 finds the label of every jump. -/
theorem goodSourceAssembles : Obligations.GoodSourceAssembles := by
  intro pol lines start hforms hnodup hfits hjumps
  obtain ⟨r, h1⟩ := pass1_isOk (r := AsmRun.empty start) (n := 1) hforms hnodup hfits
  have hresolved : ∀ line ∈ lines, Resolved r.labels line := by
    intro line hline name hjump
    rw [pass1_labels h1, lookupLabel_isSome, labelTable_names]
    exact hjumps line hline name hjump
  obtain ⟨prog, h2, -⟩ := pass2_resolved 1 hresolved
  rw [← pass1_prog h1] at h2
  exact ⟨_, assembleLines_of_passes h1 h2⟩

/-- Settles O49: the stream is made of the pairs of bytes of the instruction lines. -/
theorem objectStreamIsTwoBytesPerInstruction : Obligations.ObjectStreamIsTwoBytesPerInstruction := by
  constructor
  · intro pol lines start out h
    obtain ⟨hlines, -, hbytes, -⟩ := assemblerTranslatesTheSource pol lines start out h
    have hpair : ∀ line ∈ emittedLines lines, (lineBytes out.labels line).length = 2 :=
      fun line hline => lineBytes_length (List.mem_filter.1 hline).2 _
    rw [hbytes, hlines]
    exact ⟨flatMap_pairs_length hpair, fun k line hk => flatMap_pairs_getD hpair hk⟩
  · intro pol lines start h
    exact assembleLines_of_passes (pass1_blank h pol (AsmRun.empty start) 1) rfl

/-- Settles O50: the declaration stands in the table, in which no name stands twice. -/
theorem labelIsTwiceTheCountPlusStart : Obligations.LabelIsTwiceTheCountPlusStart := by
  intro pol before line after start out name h hd
  obtain ⟨hlines, hlabels, -⟩ := assemblerTranslatesTheSource pol _ start out h
  obtain ⟨hlength, -⟩ := objectStreamIsTwoBytesPerInstruction.1 pol _ start out h
  have hmem : (name, 2 * (emittedLines before).length + start.toNat) ∈ out.labels := by
    rw [hlabels, labelTable_append]
    simp [labelTable, hd]
  refine ⟨lookupLabel_of_mem (assembleLines_labels_nodup h) hmem, ?_, hlength⟩
  rw [hlines, emittedLines_append, emittedLines_declaration hd]

/-- Settles O53: pass 1 raises on the declaration, by what it left in the table and in the Program before. -/
theorem secondDeclarationAndOverflowAreReported : Obligations.SecondDeclarationAndOverflowAreReported := by
  intro pol before line after start r name hbefore hd a
  have hnames : r.labels.map (·.1) = before.filterMap declaredName := by
    rw [pass1_labels hbefore, labelTable_names]
  have hhere : r.here = a := pass1_here hbefore
  refine ⟨fun hmem => assembleLines_error_of_line hbefore ?_,
    fun hnew hover hpol => assembleLines_error_of_line hbefore ?_⟩
  · rw [← hnames, ← lookupLabel_isSome] at hmem
    rw [pass1Line_declaration hd, declare_duplicate hmem]
  · rw [← hnames, ← lookupLabel_eq_none] at hnew
    rw [← hhere] at hover
    rw [pass1Line_declaration hd, hpol, declare_overflow hnew hover, hhere]

/-- Settles O54. -/
theorem labelTablesAreWellFormed : Obligations.LabelTablesAreWellFormed := by
  intro pol lines start out h
  refine ⟨(labelsWf_iff _).2 ⟨?_, assembleLines_labels_nodup h⟩, ?_⟩
  · obtain ⟨-, hlabels, -⟩ := assemblerTranslatesTheSource pol lines start out h
    rw [hlabels]
    exact labelTable_isName
  · rintro rfl
    obtain ⟨r, prog, h1, -, rfl⟩ := assembleLines_ok h
    exact pass1_reject_le h1 (by simp [AsmRun.empty])

/-- Settles O55: upper-casing and trimming commute with both passes. -/
theorem caseAndOuterBlanksDoNotMatter : Obligations.CaseAndOuterBlanksDoNotMatter := by
  intro pol lines start
  constructor
  · intro out h
    rw [assembleLines_normalized, h]
    rfl
  · intro e h
    rw [assembleLines_normalized, h]
    rfl

/-- Settles O56: the start offset is added to every address of the table, and only jumps read the table. -/
theorem startShiftsTheLabelsAlike : Obligations.StartShiftsTheLabelsAlike := by
  intro pol lines start start' out out' h h'
  obtain ⟨hlines, hlabels, -⟩ := assemblerTranslatesTheSource pol lines start out h
  obtain ⟨hlines', hlabels', -⟩ := assemblerTranslatesTheSource pol lines start' out' h'
  obtain ⟨-, hbytes⟩ := objectStreamIsTwoBytesPerInstruction.1 pol lines start out h
  obtain ⟨-, hbytes'⟩ := objectStreamIsTwoBytesPerInstruction.1 pol lines start' out' h'
  have hsame : out.lines = out'.lines := hlines.trans hlines'.symm
  refine ⟨hsame, fun name a ha => ?_, fun k line hk hjump => ?_⟩
  · rw [hlabels, labelTable_start, lookupLabel_shift, Option.map_eq_some_iff] at ha
    obtain ⟨b, hb, rfl⟩ := ha
    refine ⟨b + start'.toNat, ?_, by omega⟩
    rw [hlabels', labelTable_start, lookupLabel_shift, hb]
    rfl
  · have hpair := (hbytes k line hk).trans
      ((lineBytes_of_not_jump hjump _ _).trans (hbytes' k line (hsame ▸ hk)).symm)
    simpa using hpair

end Sys2Proof
end
